-- ==== Sys2Proof/Word.lean ====
section
/-! DEFINITION. The widths of the block (00_scope.md R7, R11) and the one piece of plain arithmetic its size
formulas use (00_scope.md R12). -/

namespace Sys2Proof

/-- One subfingerprint, and one difference value: `W = 32` bits (R7). -/
abbrev Word := BitVec 32

/-- One byte: an algorithm identifier (`ALGW = 8`), or one byte of the encoded buffer (R7, R57). -/
abbrev Byte := BitVec 8

/-- One normal code: `NW = 3` bits (R7). -/
abbrev NCode := BitVec 3

/-- One exceptional code: `XW = 5` bits (R7, R9). -/
abbrev XCode := BitVec 5

/-- One command word `{cmd_op, cmd_data}` (30_encoding.md R81). -/
abbrev CmdWord := BitVec 34

/-- One header, offset 0 in the top byte (30_encoding.md R88, R96). -/
abbrev HdrWord := BitVec 32

/-- `ceil_div(a, b)` of 00_scope.md R12. -/
def ceilDiv (a b : Nat) : Nat := (a + b - 1) / b

end Sys2Proof
end

