-- ==== Sys2Proof/Config.lean ====
section
/-! DEFINITION. What the builder of a block fixes (00_scope.md R8), and the values the spec leaves open
(93_implementation_defined.md U4, U6). -/

namespace Sys2Proof

/-- Which three bytes of the element count go into header bytes 1 to 3 (00_scope.md R8, 42_pack.md R134). -/
inductive CntSel where
  | hi
  | lo
  deriving DecidableEq, Repr

/-- The build parameters of a block (00_scope.md R8): the capacities of `NMEM` and `XMEM` in codes and of `OBUF` in
bytes, and the choice of count bytes. They are plain data carried in State and no step changes them (70 R236). -/
structure Config where
  ncap   : Nat
  xcap   : Nat
  ocap   : Nat
  cntSel : CntSel
  deriving DecidableEq, Repr

/-- The constraints of 00_scope.md R8. -/
abbrev Config.Ok (c : Config) : Prop :=
  (1 ≤ c.ncap ∧ c.ncap < 2 ^ 64) ∧ c.xcap < 2 ^ 64 ∧ (4 ≤ c.ocap ∧ c.ocap < 2 ^ 64)

/-- `REFCFG` of 00_scope.md R10. -/
def Config.ref : Config := ⟨4096, 512, 1860, .hi⟩

/-- `SMALLCFG` of 00_scope.md R10. -/
def Config.small : Config := ⟨8, 2, 8, .hi⟩

/-- `ceil(log2(cap + 1))`: the width of a counter of 0 to `cap` (00_scope.md R8: `NCW`, `XCW`, `OLW`). -/
def Config.counterWidth (cap : Nat) : Nat := if cap = 0 then 0 else Nat.log2 cap + 1

/-- Free value: what `st_count` shows in `FAULT` (10_state.md R34, U4). Log entry 5. -/
opaque Config.anyCount : Nat → BitVec 64

/-- Free value: what `st_ncnt` shows in `FAULT`, before it is cut to the port's width (10_state.md R34, U4). Log entry 5. -/
opaque Config.anyNcnt : Nat → Nat

/-- Free value: what `st_xcnt` shows in `FAULT`, before it is cut to the port's width (10_state.md R34, U4). Log entry 5. -/
opaque Config.anyXcnt : Nat → Nat

/-- Free value: what `st_olen` shows in `FAULT`, before it is cut to the port's width (10_state.md R34, U4). Log entry 5. -/
opaque Config.anyOlen : Nat → Nat

/-- Free value: what `out_data` shows while `out_valid` is 0 (44_commands.md R177, U6). Log entry 5. -/
opaque Config.anyOutData : Nat → Byte

/-- Free value: what `out_last` shows while `out_valid` is 0 (44_commands.md R177, U6). Log entry 5. -/
opaque Config.anyOutLast : Nat → Bool

end Sys2Proof
end

