-- ==== Sys2Proof/Syntax.lean ====
section
/-! DEFINITION. The operations of the block: one constructor for each row of spec/opcode_table.json
(00_scope.md R6 says what "instruction" means on this hardware). -/

namespace Sys2Proof

/-- The rows of the opcode table. Ignored bits of a command word (30_encoding.md R84) are no operands and have no
field. -/
inductive Instr where
  /-- `START a` (44_commands.md R176). -/
  | start (a : Byte)
  /-- `PUSH w` (44_commands.md R178). -/
  | push (w : Word)
  /-- `FINISH` (44_commands.md R180). -/
  | finish
  /-- `CLEAR` (44_commands.md R184). -/
  | clear
  /-- Normal code 0 (41_symbol.md R113). -/
  | term
  /-- Normal code 1 (41_symbol.md R111). -/
  | gap1
  /-- Normal code 2 (41_symbol.md R111). -/
  | gap2
  /-- Normal code 3 (41_symbol.md R111). -/
  | gap3
  /-- Normal code 4 (41_symbol.md R111). -/
  | gap4
  /-- Normal code 5 (41_symbol.md R111). -/
  | gap5
  /-- Normal code 6 (41_symbol.md R111). -/
  | gap6
  /-- Normal code 7 (41_symbol.md R112). -/
  | esc
  /-- An exceptional code the block emits, 0 to 25 (41_symbol.md R112, 30_encoding.md R86). -/
  | xcode (v : XCode)
  /-- A 5-bit value the block never emits, 26 to 31 (30_encoding.md R91). -/
  | xcodeNever (v : XCode)
  /-- The header: bytes 0 to 3 of the encoded buffer (42_pack.md R132, 30_encoding.md R88). -/
  | header (a c0 c1 c2 : Byte)
  /-- The output transfer (44_commands.md R182). -/
  | pop
  deriving DecidableEq, Repr

end Sys2Proof
end

