-- ==== Sys2Proof/WellFormed.lean ====
section
/-! DEFINITION. Which terms of Instr name a row of the opcode table: the two exceptional rows split the 5-bit
values between them (30_encoding.md R86). -/

namespace Sys2Proof

/-- The check on an instruction's operands. -/
def Instr.wf : Instr → Bool
  | .start _ => true
  | .push _ => true
  | .finish => true
  | .clear => true
  | .term => true
  | .gap1 => true
  | .gap2 => true
  | .gap3 => true
  | .gap4 => true
  | .gap5 => true
  | .gap6 => true
  | .esc => true
  | .xcode v => decide (v.toNat ≤ 25)
  | .xcodeNever v => decide (26 ≤ v.toNat)
  | .header _ _ _ _ => true
  | .pop => true

/-- `i` names a row of the opcode table. -/
abbrev WellFormed (i : Instr) : Prop := i.wf = true

end Sys2Proof
end

