-- ==== Sys2Proof/Decode.lean ====
section
/-! DEFINITION. From a word in one of the block's formats (30_encoding.md R80) to the operation it stands for, and
back. Every command word is legal (R82), so the decoder rejects only a number that is no word of its format. -/

namespace Sys2Proof

/-- The formats a row of the opcode table has (30_encoding.md R80, R96). `pop` is the table's format `none`: the
output transfer has no word. `unlisted` is a length the table gives no row. -/
inductive Format where
  | cmd
  | nsym
  | xsym
  | hdr
  | pop
  | unlisted
  deriving DecidableEq, Repr

/-- A word as it is offered: its format and its bits, as one number whose bit 0 is the least significant. -/
structure FWord where
  fmt  : Format
  bits : Nat
  deriving DecidableEq, Repr

/-- Why a number is no word of the block. -/
inductive Reject where
  /-- The length belongs to no format of 30_encoding.md R80. -/
  | noSuchFormat
  /-- A bit above the format's width is set. -/
  | strayBits
  deriving DecidableEq, Repr

/-- The number of bits of each format (30_encoding.md R80). -/
def Format.width : Format → Nat
  | .cmd => 34
  | .nsym => 3
  | .xsym => 5
  | .hdr => 32
  | .pop => 0
  | .unlisted => 0

/-- `cmd_op`, bits 33 and 32 of the command word (R81). -/
def cmdOp (w : CmdWord) : BitVec 2 := w.extractLsb' 32 2

/-- `cmd_data`, bits 31 to 0 of the command word (R81). -/
def cmdData (w : CmdWord) : BitVec 32 := w.extractLsb' 0 32

/-- Operand of `START`: `data[7:0]`; `data[31:8]` is ignored (R83, R84). -/
def startOperand (data : BitVec 32) : Byte := data.extractLsb' 0 8

/-- Operand of `PUSH`: all of `data` (R83). -/
def pushOperand (data : BitVec 32) : Word := data

/-- The four commands, one per value of `op` (R82); `FINISH` and `CLEAR` ignore all of `data` (R84). -/
def decodeCmd (w : CmdWord) : Instr :=
  if cmdOp w = 0b00#2 then .start (startOperand (cmdData w))
  else if cmdOp w = 0b01#2 then .push (pushOperand (cmdData w))
  else if cmdOp w = 0b10#2 then .finish
  else .clear

/-- The eight normal codes (R85). -/
def decodeNsym (c : NCode) : Instr :=
  if c = 0b000#3 then .term
  else if c = 0b001#3 then .gap1
  else if c = 0b010#3 then .gap2
  else if c = 0b011#3 then .gap3
  else if c = 0b100#3 then .gap4
  else if c = 0b101#3 then .gap5
  else if c = 0b110#3 then .gap6
  else .esc

/-- The exceptional codes: 0 to 25 are emitted, 26 to 31 never (R86). -/
def decodeXsym (v : XCode) : Instr :=
  if v.toNat ≤ 25 then .xcode v else .xcodeNever v

/-- The header's four bytes, offset 0 first (R88). -/
def decodeHdr (h : HdrWord) : Instr :=
  .header (h.extractLsb' 24 8) (h.extractLsb' 16 8) (h.extractLsb' 8 8) (h.extractLsb' 0 8)

/-- The operation a word stands for; total, and rejecting by name. -/
def decode (f : FWord) : Except Reject Instr :=
  match f.fmt with
  | .cmd => if f.bits < 2 ^ 34 then .ok (decodeCmd (BitVec.ofNat 34 f.bits)) else .error .strayBits
  | .nsym => if f.bits < 2 ^ 3 then .ok (decodeNsym (BitVec.ofNat 3 f.bits)) else .error .strayBits
  | .xsym => if f.bits < 2 ^ 5 then .ok (decodeXsym (BitVec.ofNat 5 f.bits)) else .error .strayBits
  | .hdr => if f.bits < 2 ^ 32 then .ok (decodeHdr (BitVec.ofNat 32 f.bits)) else .error .strayBits
  | .pop => if f.bits = 0 then .ok .pop else .error .strayBits
  | .unlisted => .error .noSuchFormat

/-- A command word from its two fields (R81). -/
def cmdWord (op : BitVec 2) (data : BitVec 32) : CmdWord := op ++ data

/-- A header word from its four bytes (R88). -/
def hdrWord (a c0 c1 c2 : Byte) : HdrWord := a ++ (c0 ++ (c1 ++ c2))

/-- A word of format `CMD`. -/
def FWord.ofCmd (w : CmdWord) : FWord := ⟨.cmd, w.toNat⟩

/-- A word of format `NSYM`. -/
def FWord.ofNsym (c : NCode) : FWord := ⟨.nsym, c.toNat⟩

/-- A word of format `XSYM`. -/
def FWord.ofXsym (v : XCode) : FWord := ⟨.xsym, v.toNat⟩

/-- A word of format `HDR`. -/
def FWord.ofHdr (h : HdrWord) : FWord := ⟨.hdr, h.toNat⟩

/-- The word of an operation (R81 to R88); the ignored bits of a command are written 0, as the trace notation does
(R94). -/
def encode : Instr → FWord
  | .start a => .ofCmd (cmdWord 0b00#2 (0#24 ++ a))
  | .push w => .ofCmd (cmdWord 0b01#2 w)
  | .finish => .ofCmd (cmdWord 0b10#2 0#32)
  | .clear => .ofCmd (cmdWord 0b11#2 0#32)
  | .term => .ofNsym 0b000#3
  | .gap1 => .ofNsym 0b001#3
  | .gap2 => .ofNsym 0b010#3
  | .gap3 => .ofNsym 0b011#3
  | .gap4 => .ofNsym 0b100#3
  | .gap5 => .ofNsym 0b101#3
  | .gap6 => .ofNsym 0b110#3
  | .esc => .ofNsym 0b111#3
  | .xcode v => .ofXsym v
  | .xcodeNever v => .ofXsym v
  | .header a c0 c1 c2 => .ofHdr (hdrWord a c0 c1 c2)
  | .pop => ⟨.pop, 0⟩

/-- The format of a table row given by its length in bits, the row's own width or that width in whole bytes.
DESIGN CHOICE, log entry 12: both code formats fill one byte; 0 to 7 is read as a normal code, since every one of
those values has a row of its own, and the rest as an exceptional code. -/
def formatOf (nbits w : Nat) : Format :=
  if nbits = 34 ∨ nbits = 40 then .cmd
  else if nbits = 3 then .nsym
  else if nbits = 5 then .xsym
  else if nbits = 8 then (if w < 8 then .nsym else .xsym)
  else if nbits = 32 then .hdr
  else if nbits = 0 then .pop
  else .unlisted

/-- The word of a table row of `nbits` bits whose bits are `w`. -/
def tableWord (nbits w : Nat) : FWord := ⟨formatOf nbits w, w⟩

/-- The instruction the decoder reads from a table row of `nbits` bits whose bits are `w`. -/
def decodeTableWord (nbits w : Nat) : Option Instr :=
  (decode (tableWord nbits w)).toOption

end Sys2Proof
end

