-- ==== Sys2Proof/Machine/State.lean ====
section
/-! DEFINITION. The state of the block (10_state.md R20 to R36), the working values of one SCAN (R28, R29), what
the host has offered and received, and the reasons the model stops. All of it is plain data. -/

namespace Sys2Proof.Machine

/-- `phase` (10_state.md R31). -/
inductive Phase where
  | idle
  | load
  | drain
  | fault
  deriving DecidableEq, Repr

/-- The values of the register `fault` (60_exceptions.md R201, R222). Entering the fault state is a step of the
block (R206), so these are data in State and no stop of the model. -/
inductive FaultCode where
  | none
  | resource
  | bitwrite
  | proto
  deriving DecidableEq, Repr

/-- A private memory (20_memory.md R50) as its written entries, by index. An index that is not listed has never
been written and reads as no value (log entry 1). In canonical form the indexes rise strictly: `Memory.wf`.
`Memory 8`, the type of `OBUF`, is `List Host.Cell`. -/
abbrev Memory (w : Nat) := List (Nat × BitVec w)

/-- The canonical form of a memory: indexes rise strictly. -/
def Memory.wf {w : Nat} (m : Memory w) : Bool := decide ((m.map Prod.fst).Pairwise (· < ·))

/-- The working values of one SCAN (10_state.md R28, R29; 41_symbol.md R110): the difference value, the position
looked at, the position of the last set bit, the two lists emitted so far, and whether the terminator has been
emitted (the model's own field: R113 emits it once). -/
structure Scan where
  d       : Word
  bit     : Nat
  lastBit : Nat
  ns      : List NCode
  xs      : List XCode
  ended   : Bool
  deriving DecidableEq, Repr

/-- One thing offered to the block: the reset input held 1 across an edge (30_encoding.md R94), or a word. -/
inductive Offer where
  | reset
  | word (f : FWord)
  deriving DecidableEq, Repr

/-- One byte the host has received: `out_data` and `out_last` at the transfer (44_commands.md R182). -/
structure OutByte where
  data : Byte
  last : Bool
  deriving DecidableEq, Repr

/-- The state. The spec's state is `alg` to `obuf` (10_state.md R20). `cfg` is the build's parameters, which no step
changes (R37, 70 R236). `scan` is the working values of a SCAN in flight, none between operations (R29). `pending`,
`delivered` and `draw` are the model's own: what the host offers next, what it has received, and a counter that every
step advances (log entries 2, 3, 4, 5, 8). -/
structure State where
  cfg       : Config
  alg       : Byte
  prev      : Word
  count     : BitVec 64
  ncnt      : Nat
  xcnt      : Nat
  olen      : Nat
  rp        : Nat
  phase     : Phase
  fault     : FaultCode
  nmem      : Memory 3
  xmem      : Memory 5
  obuf      : Memory 8
  scan      : Option Scan
  pending   : List Offer
  delivered : List OutByte
  draw      : Nat
  deriving DecidableEq, Repr

/-- Why the model stops: a read of a memory entry that nothing has written. The spec performs no such read
(20_memory.md R53, R71), so each is SAFE: only a state no run reaches stops so. -/
inductive Fault where
  /-- Raised by FINISH (PACKN) on an unwritten entry `a` of `NMEM` below `ncnt`. Safe. -/
  | nmemUnwritten (a : Nat)
  /-- Raised by FINISH (PACKX) on an unwritten entry `a` of `XMEM` below `xcnt`. Safe. -/
  | xmemUnwritten (a : Nat)
  /-- Raised by POP on an unwritten byte `a` of `OBUF`, and by PUTBITS on one (never: PACK zero-fills first). Safe. -/
  | obufUnwritten (a : Nat)
  deriving DecidableEq, Repr

/-- Why the model has no meaning for what is offered. -/
inductive Refusal where
  /-- Raised by exec for a row that has no meaning yet. Safe. -/
  | notModelled (mnemonic : String)
  /-- Raised by step for a number that is no word of the block (30_encoding.md R80); no port can carry one. Safe. -/
  | undecodable (r : Reject)
  /-- Raised by XCODE_NEVER: the block never emits the value and the spec gives it no meaning (30_encoding.md R91,
  93_implementation_defined.md U10). Safe. -/
  | neverEmitted (v : XCode)
  deriving DecidableEq, Repr

/-- The outcome of an operation. -/
abbrev Out := Host.Outcome State Fault Refusal

/-- The state after reset (10_state.md R41): `IDLE`, no fault, every register 0. The memories list nothing (log entry
1), the parameters are `REFCFG` (log entry 2), nothing is offered and nothing has been received. -/
def State.reset : State where
  cfg       := Config.ref
  alg       := 0
  prev      := 0
  count     := 0
  ncnt      := 0
  xcnt      := 0
  olen      := 0
  rp        := 0
  phase     := .idle
  fault     := .none
  nmem      := []
  xmem      := []
  obuf      := []
  scan      := none
  pending   := []
  delivered := []
  draw      := 0

end Sys2Proof.Machine
end

