-- ==== Sys2Proof/Machine/Ops.lean ====
section
/-! DEFINITION. The named operations over memories and registers: MemRead, MemWrite, NAppend, XAppend, BitLoc
(20_memory.md R53 to R56), fault entry and the return from it (60_exceptions.md R206, R209), the legality test of a
command (44_commands.md R175), and reset (70_reset_and_hazards.md R230). -/

namespace Sys2Proof.Machine

/-- `MemRead` (20_memory.md R53): the entry at index `a`, or no value where nothing has been written (log entry 1). -/
def Memory.read {w : Nat} : Memory w → Nat → Option (BitVec w)
  | [], _ => none
  | (b, x) :: m, a => if a = b then some x else Memory.read m a

/-- `MemWrite` (20_memory.md R54): entry `a` becomes `v` and nothing else changes. Keeps the canonical form. -/
def Memory.write {w : Nat} : Memory w → Nat → BitVec w → Memory w
  | [], a, v => [(a, v)]
  | (b, x) :: m, a, v =>
    if a < b then (a, v) :: (b, x) :: m
    else if a = b then (a, v) :: m
    else (b, x) :: Memory.write m a v

/-- `for a = 0 .. n-1: M[a] <- v` (42_pack.md R140). -/
def Memory.fill {w : Nat} (m : Memory w) (v : BitVec w) : Nat → Memory w
  | 0 => m
  | n + 1 => (Memory.fill m v n).write n v

/-- Every listed index is below the capacity (20_memory.md R50, R70). -/
def Memory.below {w : Nat} (m : Memory w) (cap : Nat) : Bool := m.all (fun p => decide (p.1 < cap))

/-- `b[i] = x` for one bit of a byte (42_pack.md R135). -/
def setBit (b : Byte) (i : Nat) (x : Bool) : Byte :=
  if x then b ||| (1#8 <<< i) else b &&& ~~~(1#8 <<< i)

/-- `BitLoc(base, p)` (20_memory.md R56): the byte offset and the bit index of bit `p` of a region. -/
def bitLoc (base p : Nat) : Nat × Nat := (base + p / 8, 7 - p % 8)

/-- `NAppend(v)` (20_memory.md R55). -/
def nAppend (s : State) (v : NCode) : State :=
  { s with nmem := s.nmem.write s.ncnt v, ncnt := s.ncnt + 1 }

/-- `XAppend(v)` (20_memory.md R55). -/
def xAppend (s : State) (v : XCode) : State :=
  { s with xmem := s.xmem.write s.xcnt v, xcnt := s.xcnt + 1 }

/-- `for i = 0 .. len(ns)-1: NAppend(ns[i])` (44_commands.md R178). -/
def nAppends (s : State) (ns : List NCode) : State := ns.foldl nAppend s

/-- `for i = 0 .. len(xs)-1: XAppend(xs[i])` (44_commands.md R178). -/
def xAppends (s : State) (xs : List XCode) : State := xs.foldl xAppend s

/-- `raise Fault(c)` (60_exceptions.md R206): the code is recorded and the phase becomes `FAULT`; nothing is saved and
no other write of the command takes effect. The code is written only when none is recorded (10_state.md R33: "the first
fault is kept"; log entry 14). The other registers stay as they were, which R206 allows (log entry 6). -/
def raiseFault (c : FaultCode) (s : State) : State :=
  { s with fault := if s.fault = .none then c else s.fault, phase := .fault }

/-- The return from a fault (60_exceptions.md R209), and the rule of `CLEAR` (44_commands.md R184): the fault and the
counters become 0 and the phase `IDLE`; `alg`, `prev` and the memories are kept. No scan is left in flight (log entry
8). -/
def leaveFault (s : State) : State :=
  { s with fault := .none, count := 0, ncnt := 0, xcnt := 0, olen := 0, rp := 0, phase := .idle, scan := none }

/-- The legality test every command but `CLEAR` begins with (44_commands.md R175, 60_exceptions.md R205): in `FAULT` the
command is discarded (R208), in its legal phase its rule runs, elsewhere it raises `F_PROTO` (R204). -/
def inPhase (legal : Phase) (s : State) (rule : Out) : Out :=
  if s.phase = .fault then .next s
  else if s.phase = legal then rule
  else .next (raiseFault .proto s)

/-- Reset (70_reset_and_hazards.md R230, R232; 10_state.md R41): every register takes its reset value and the memories
are not written. The parameters stay (R236), as do what the host offers later and what it has already received (R231).
No scan is left in flight (log entry 8). -/
def resetRegisters (s : State) : State :=
  { s with
    alg := 0, prev := 0, count := 0, ncnt := 0, xcnt := 0, olen := 0, rp := 0
    phase := .idle, fault := .none, scan := none }

end Sys2Proof.Machine
end

