-- ==== Sys2Proof/Machine/Operands.lean ====
section
/-! DEFINITION. How operands and fields are assembled: gaps and exceptional codes (30_encoding.md R87), the
element-count field (42_pack.md R134, 30_encoding.md R89), and the sizes of the regions (42_pack.md R131). The
operands of the command words (R83) are taken apart in Decode. -/

namespace Sys2Proof.Machine

/-- `gap = bit - last_bit` (41_symbol.md R110); `last_bit < bit`, so nothing is cut off (R115). -/
def gapOf (lastBit bit : Nat) : Nat := bit - lastBit

/-- The normal code of a gap below 7: the gap itself (41_symbol.md R111). -/
def normalOf (gap : Nat) : NCode := BitVec.ofNat 3 gap

/-- The normal code `ESC` (00_scope.md R7). -/
def escCode : NCode := 7#3

/-- The normal code `TERM` (00_scope.md R7). -/
def termCode : NCode := 0#3

/-- The exceptional code of a gap of 7 or more: `gap - 7` (30_encoding.md R87). -/
def exceptionalOf (gap : Nat) : XCode := BitVec.ofNat 5 (gap - 7)

/-- `CountField(count)` (42_pack.md R134): the three bytes C0, C1, C2. -/
def countField (sel : CntSel) (count : BitVec 64) : Byte × Byte × Byte :=
  match sel with
  | .hi => (count.extractLsb' 40 8, count.extractLsb' 48 8, count.extractLsb' 56 8)
  | .lo => (count.extractLsb' 0 8, count.extractLsb' 8 8, count.extractLsb' 16 8)

/-- `R1` of `SIZE` (42_pack.md R131). -/
def normalBytes (ncnt : Nat) : Nat := ceilDiv (3 * ncnt) 8

/-- `R2` of `SIZE` (42_pack.md R131). -/
def exceptionalBytes (xcnt : Nat) : Nat := ceilDiv (5 * xcnt) 8

/-- The length of an encoded buffer of `ncnt` normal and `xcnt` exceptional codes (42_pack.md R140, R147). -/
def bufferBytes (ncnt xcnt : Nat) : Nat := 4 + normalBytes ncnt + exceptionalBytes xcnt

/-- The bytes `HEADER` touches, 0 to 3 (42_pack.md R141, 20_memory.md R64). -/
def inHeader (a : Nat) : Bool := decide (a < 4)

/-- The bytes `PACKN` touches, 4 to `4 + R1 - 1` (42_pack.md R141, 20_memory.md R64). -/
def inNormal (ncnt a : Nat) : Bool := decide (4 ≤ a) && decide (a < 4 + normalBytes ncnt)

/-- The bytes `PACKX` touches, `4 + R1` to `4 + R1 + R2 - 1` (42_pack.md R141, 20_memory.md R64). -/
def inExceptional (ncnt xcnt a : Nat) : Bool :=
  decide (4 + normalBytes ncnt ≤ a) && decide (a < bufferBytes ncnt xcnt)

/-- The offset of the last byte that a `w`-bit field at bit `p` of a region touches: `last` of `PUTBITS` (42_pack.md R135,
R141). -/
def lastByte (base p w : Nat) : Nat := base + (p + w - 1) / 8

end Sys2Proof.Machine
end

