-- ==== Sys2Proof/Machine/Pack.lean ====
section
/-! DEFINITION. The bit-packing stage (42_pack.md): SIZE, HEADER, PUTBITS, PACKN, PACKX, PACK, and the row HEADER. The
stage works on the contents of `OBUF` and hands them to FINISH, which writes them only when nothing was raised. -/

namespace Sys2Proof.Machine

/-- How a packing operation ends: the new contents of `OBUF`, a fault of the block (60_exceptions.md R206), or a stop of
the model. -/
inductive Packed where
  | done (o : Memory 8)
  | raised (c : FaultCode)
  | stopped (f : Fault)
  deriving DecidableEq, Repr

/-- The next operation, where the one before raised and stopped nothing. -/
def Packed.andThen (r : Packed) (k : Memory 8 → Packed) : Packed :=
  match r with
  | .done o => k o
  | .raised c => .raised c
  | .stopped f => .stopped f

/-- `HEADER` (42_pack.md R132) on the contents of `OBUF`, in the bytes of `inHeader` (R141). -/
def headerBytes (sel : CntSel) (alg : Byte) (count : BitVec 64) (o : Memory 8) : Memory 8 :=
  (((o.write 0 alg).write 1 (countField sel count).1).write 2 (countField sel count).2.1).write 3
    (countField sel count).2.2

/-- The bits `j` to `j + n - 1` of a field, most significant first, each by read-modify-write of its byte (42_pack.md
R135, 20_memory.md R59, R62). -/
def putEach {w : Nat} (base p : Nat) (v : BitVec w) (j : Nat) : Nat → Memory 8 → Packed
  | 0, o => .done o
  | n + 1, o =>
    match o.read (bitLoc base (p + j)).1 with
    | none => .stopped (.obufUnwritten (bitLoc base (p + j)).1)
    | some b =>
      putEach base p v (j + 1) n
        (o.write (bitLoc base (p + j)).1 (setBit b (bitLoc base (p + j)).2 (v.getLsbD (w - 1 - j))))

/-- `PUTBITS(base, p, w, v)` (42_pack.md R135), with the bound check of R136 before the first bit is written. The check
never fires in PACK (R148) and is kept. -/
def putBits {w : Nat} (olen base p : Nat) (v : BitVec w) (o : Memory 8) : Packed :=
  if olen ≤ lastByte base p w then .raised .bitwrite
  else putEach base p v 0 w o

/-- The codes `k` to `k + n - 1` of a stream into their region, code `k` at bit offset `w * k` (42_pack.md R138, R139). -/
def packRegion {w : Nat} (stop : Nat → Fault) (codes : Memory w) (olen base : Nat) (k : Nat) :
    Nat → Memory 8 → Packed
  | 0, o => .done o
  | n + 1, o =>
    match codes.read k with
    | none => .stopped (stop k)
    | some v => (putBits olen base (w * k) v o).andThen (packRegion stop codes olen base (k + 1) n)

/-- `PACKN` (42_pack.md R138), in the bytes of `inNormal` (R141). -/
def packN (s : State) (olen : Nat) (o : Memory 8) : Packed :=
  packRegion .nmemUnwritten s.nmem olen 4 0 s.ncnt o

/-- `PACKX(R1)` (42_pack.md R139), in the bytes of `inExceptional` (R141). -/
def packX (s : State) (olen : Nat) (o : Memory 8) : Packed :=
  packRegion .xmemUnwritten s.xmem olen (4 + normalBytes s.ncnt) 0 s.xcnt o

/-- `PACK` (42_pack.md R140), on the contents of `OBUF`; the new `olen` is `bufferBytes s.ncnt s.xcnt`. -/
def pack (s : State) : Packed :=
  if s.cfg.ocap < bufferBytes s.ncnt s.xcnt then .raised .resource
  else
    (packN s (bufferBytes s.ncnt s.xcnt)
      (headerBytes s.cfg.cntSel s.alg s.count (s.obuf.fill 0#8 (bufferBytes s.ncnt s.xcnt)))).andThen
      (packX s (bufferBytes s.ncnt s.xcnt))

/-- The row `HEADER` (42_pack.md R132): its operands are `alg`, `count` and `CNT_SEL`. The bytes of the word are what
the operation writes, not what it takes (30_encoding.md R88; log entry 11). -/
def execHeader (_ _ _ _ : Byte) (s : State) : Out :=
  .next { s with obuf := headerBytes s.cfg.cntSel s.alg s.count s.obuf }

/-- Bits `hi` down to `lo` of `b` become the low `hi - lo + 1` bits of `v` (42_pack.md R137). -/
def setField (b : Byte) (hi lo : Nat) (v : Nat) : Byte :=
  (b &&& ~~~(BitVec.ofNat 8 (2 ^ (hi + 1) - 2 ^ lo))) ||| BitVec.ofNat 8 (v % 2 ^ (hi + 1 - lo) * 2 ^ lo)

/-- The byte form of `PUTBITS` (42_pack.md R137), without the bound check. -/
def putBytes {w : Nat} (base p : Nat) (v : BitVec w) (o : Memory 8) : Packed :=
  let a := base + p / 8
  let s := p % 8
  match o.read a with
  | none => .stopped (.obufUnwritten a)
  | some b =>
    if s + w ≤ 8 then .done (o.write a (setField b (7 - s) (8 - s - w) v.toNat))
    else
      let n1 := 8 - s
      let n2 := w - n1
      match o.read (a + 1) with
      | none => .stopped (.obufUnwritten (a + 1))
      | some b' =>
        .done ((o.write a (setField b (n1 - 1) 0 (v.toNat / 2 ^ n2))).write (a + 1)
          (setField b' 7 (8 - n2) v.toNat))

end Sys2Proof.Machine
end

