-- ==== Sys2Proof/Machine/Symbol.lean ====
section
/-! DEFINITION. The delta stage (40_delta.md) and the symbol stage (41_symbol.md): DELTA, SCAN, and the rows TERM,
GAP1 to GAP6, ESC, XCODE and XCODE_NEVER, which are the emissions of a SCAN. PUSH runs the whole SCAN as one step; a
row run on its own is one emission of the scan in flight (log entry 8). -/

namespace Sys2Proof.Machine

/-- `DELTA` (40_delta.md R100): the difference value. `PUSH` does the write `prev <- w`. -/
def delta (prev w : Word) : Word := prev ^^^ w

/-- A SCAN about to look at position 1 (41_symbol.md R110). -/
def Scan.start (d : Word) : Scan := ⟨d, 1, 0, [], [], false⟩

/-- `d[bit-1] == 1` (41_symbol.md R110). -/
def Scan.here (c : Scan) : Bool := c.d.getLsbD (c.bit - 1)

/-- The gap at the position looked at (41_symbol.md R110). -/
def Scan.gap (c : Scan) : Nat := gapOf c.lastBit c.bit

/-- `GAP` (41_symbol.md R111): its effect. -/
def Scan.emitGap (c : Scan) : Scan :=
  { c with ns := c.ns ++ [normalOf c.gap], lastBit := c.bit }

/-- `ESC` (41_symbol.md R112): its effect, on both lists in the same step. -/
def Scan.emitEsc (c : Scan) : Scan :=
  { c with ns := c.ns ++ [escCode], xs := c.xs ++ [exceptionalOf c.gap], lastBit := c.bit }

/-- `TERM` (41_symbol.md R113): its effect. -/
def Scan.emitTerm (c : Scan) : Scan :=
  { c with ns := c.ns ++ [termCode], ended := true }

/-- On to the next position. -/
def Scan.advance (c : Scan) : Scan := { c with bit := c.bit + 1 }

/-- One iteration of the loop of `SCAN` (41_symbol.md R110). -/
def Scan.visit (c : Scan) : Scan :=
  if c.here then (if c.gap < 7 then c.emitGap else c.emitEsc).advance else c.advance

/-- `n` iterations of the loop. -/
def Scan.visits : Nat → Scan → Scan
  | 0, c => c
  | n + 1, c => Scan.visits n c.visit

/-- The whole of `SCAN(d)` (41_symbol.md R110): 32 iterations, then `TERM`. -/
def scanAll (d : Word) : Scan := (Scan.visits 32 (Scan.start d)).emitTerm

/-- The results of `SCAN(d)`: the normal and the exceptional codes, in emission order (41_symbol.md R110). -/
def scan (d : Word) : List NCode × List XCode := ((scanAll d).ns, (scanAll d).xs)

/-- Past at most `n` positions that hold no set bit; none is past 32 (41_symbol.md R120: it may skip runs of zero
bits; log entry 10). -/
def Scan.skip : Nat → Scan → Scan
  | 0, c => c
  | n + 1, c => if c.bit ≤ 32 ∧ c.here = false then Scan.skip n c.advance else c

/-- The scan at its next set bit, or past position 32 where there is none. -/
def Scan.seek (c : Scan) : Scan := Scan.skip 32 c

/-- The condition of `GAP` and `ESC` (41_symbol.md R111, R112): the scan stands at a set bit. -/
def Scan.atBit (c : Scan) : Bool := decide (c.bit ≤ 32) && c.here

/-- One emission of the scan in flight: the effect `f` at the next set bit, if its gap meets `cond`; elsewhere the
emission does not come up and nothing changes (log entry 8). -/
def Scan.emitWhen (cond : Nat → Bool) (f : Scan → Scan) (c : Scan) : Scan :=
  if c.seek.atBit && cond c.seek.gap then (f c.seek).advance else c

/-- The row of normal code `k` (1 to 6): the `GAP` emission of that gap (41_symbol.md R111). -/
def Scan.emitCode (k : Nat) (c : Scan) : Scan :=
  c.emitWhen (fun g => decide (g = k)) Scan.emitGap

/-- The row `ESC`: the escape emission, whatever its gap (41_symbol.md R112). -/
def Scan.emitEscape (c : Scan) : Scan :=
  c.emitWhen (fun g => decide (7 ≤ g)) Scan.emitEsc

/-- The row `XCODE v`: the escape emission whose exceptional code is `v`; one step emits both codes (41_symbol.md R112;
log entry 9). -/
def Scan.emitEscapeOf (v : XCode) (c : Scan) : Scan :=
  c.emitWhen (fun g => decide (7 ≤ g) && decide (exceptionalOf g = v)) Scan.emitEsc

/-- The row `TERM` (41_symbol.md R113): once the scan of all 32 positions is over, and only once. -/
def Scan.emitEnd (c : Scan) : Scan :=
  if decide (32 < c.seek.bit) && !c.ended then c.seek.emitTerm else c

/-- An emission acts on the scan in flight; between operations there is none and nothing changes (10_state.md R29, log
entry 8). -/
def onScan (f : Scan → Scan) (s : State) : State := { s with scan := s.scan.map f }

/-- `TERM` (41_symbol.md R113). -/
def execTerm (s : State) : Out := .next (onScan Scan.emitEnd s)

/-- `GAP1` (41_symbol.md R111). -/
def execGap1 (s : State) : Out := .next (onScan (Scan.emitCode 1) s)

/-- `GAP2` (41_symbol.md R111). -/
def execGap2 (s : State) : Out := .next (onScan (Scan.emitCode 2) s)

/-- `GAP3` (41_symbol.md R111). -/
def execGap3 (s : State) : Out := .next (onScan (Scan.emitCode 3) s)

/-- `GAP4` (41_symbol.md R111). -/
def execGap4 (s : State) : Out := .next (onScan (Scan.emitCode 4) s)

/-- `GAP5` (41_symbol.md R111). -/
def execGap5 (s : State) : Out := .next (onScan (Scan.emitCode 5) s)

/-- `GAP6` (41_symbol.md R111). -/
def execGap6 (s : State) : Out := .next (onScan (Scan.emitCode 6) s)

/-- `ESC` (41_symbol.md R112). -/
def execEsc (s : State) : Out := .next (onScan Scan.emitEscape s)

/-- `XCODE v` (41_symbol.md R112). -/
def execXcode (v : XCode) (s : State) : Out := .next (onScan (Scan.emitEscapeOf v) s)

/-- `XCODE_NEVER v` (30_encoding.md R91): never emitted, and no meaning assigned (93_implementation_defined.md U10, whose
treatment is `refuse`; log entry 13). -/
def execXcodeNever (v : XCode) (_ : State) : Out := .refused (.neverEmitted v)

/-- A scan at the point where the code of a word of format `NSYM` or `XSYM` comes up: what a PUSH has reached when
SCAN emits it (log entry 8). -/
def scanAbout (i : Instr) : Option Scan :=
  match i with
  | .term => some (Scan.start 0)
  | .gap1 => some (Scan.start (1#32 <<< 0))
  | .gap2 => some (Scan.start (1#32 <<< 1))
  | .gap3 => some (Scan.start (1#32 <<< 2))
  | .gap4 => some (Scan.start (1#32 <<< 3))
  | .gap5 => some (Scan.start (1#32 <<< 4))
  | .gap6 => some (Scan.start (1#32 <<< 5))
  | .esc => some (Scan.start (1#32 <<< 6))
  | .xcode v => some (Scan.start (1#32 <<< (v.toNat + 6)))
  | .xcodeNever _ => none
  | .start _ => none
  | .push _ => none
  | .finish => none
  | .clear => none
  | .header _ _ _ _ => none
  | .pop => none

end Sys2Proof.Machine
end

