-- ==== Sys2Proof/Machine/Commands.lean ====
section
/-! DEFINITION. The four commands (44_commands.md R176, R178, R180, R184). -/

namespace Sys2Proof.Machine

/-- The rule of `START` (44_commands.md R176). No scan is left in flight (log entry 8). -/
def openTransaction (a : Byte) (s : State) : State :=
  { s with
    alg := a, prev := 0, count := 0, ncnt := 0, xcnt := 0, olen := 0, rp := 0
    phase := .load, scan := none }

/-- The capacity test of `PUSH` passes (44_commands.md R178, 60_exceptions.md R202). -/
def codesFit (s : State) (codes : List NCode × List XCode) : Bool :=
  decide (s.ncnt + codes.1.length ≤ s.cfg.ncap) && decide (s.xcnt + codes.2.length ≤ s.cfg.xcap)

/-- The codes of a word appended, and the word counted (44_commands.md R178). The SCAN is over (10_state.md R29). -/
def appendWord (w : Word) (codes : List NCode × List XCode) (s : State) : State :=
  { xAppends (nAppends s codes.1) codes.2 with prev := w, count := s.count + 1, scan := none }

/-- The rule of `PUSH` (44_commands.md R178): DELTA, SCAN, the capacity test before any write, the appends. -/
def pushWord (w : Word) (s : State) : State :=
  if codesFit s (scan (delta s.prev w)) then appendWord w (scan (delta s.prev w)) s
  else raiseFault .resource s

/-- The rule of `FINISH` (44_commands.md R180): PACK, then `DRAIN`. A fault raised while packing takes effect on the
state the command found (60_exceptions.md R206). -/
def buildBuffer (s : State) : Out :=
  match pack s with
  | .done o =>
    .next { s with olen := bufferBytes s.ncnt s.xcnt, obuf := o, rp := 0, phase := .drain }
  | .raised c => .next (raiseFault c s)
  | .stopped f => .fault f

/-- `START a` (44_commands.md R176). -/
def execStart (a : Byte) (s : State) : Out := inPhase .idle s (.next (openTransaction a s))

/-- `PUSH w` (44_commands.md R178). -/
def execPush (w : Word) (s : State) : Out := inPhase .load s (.next (pushWord w s))

/-- `FINISH` (44_commands.md R180). -/
def execFinish (s : State) : Out := inPhase .load s (buildBuffer s)

/-- `CLEAR` (44_commands.md R184): legal in every phase. -/
def execClear (s : State) : Out := .next (leaveFault s)

end Sys2Proof.Machine
end

