-- ==== Sys2Proof/Machine/Flags.lean ====
section
/-! DEFINITION. The block has no condition codes and no arithmetic flags (10_state.md R33). What it has in their
place: the codes of `phase` and `fault`, the six status outputs (10_state.md R34), and the output and ready signals of
the two ports (44_commands.md R170, R172, R177). All are functions of the state. -/

namespace Sys2Proof.Machine

/-- The 2-bit value of `phase` (10_state.md R31). -/
def phaseCode : Phase → BitVec 2
  | .idle => 0
  | .load => 1
  | .drain => 2
  | .fault => 3

/-- The 2-bit value of `fault` (60_exceptions.md R201). -/
def faultCode : FaultCode → BitVec 2
  | .none => 0
  | .resource => 1
  | .bitwrite => 2
  | .proto => 3

/-- `st_phase` (10_state.md R34). -/
def stPhase (s : State) : BitVec 2 := phaseCode s.phase

/-- `st_fault` (10_state.md R34). -/
def stFault (s : State) : BitVec 2 := faultCode s.fault

/-- `st_count`; in `FAULT` any value (10_state.md R34, log entry 5). -/
def stCount (s : State) : BitVec 64 :=
  if s.phase = .fault then Config.anyCount s.draw else s.count

/-- `st_ncnt`; in `FAULT` any value of the port's width (10_state.md R34, log entry 5). -/
def stNcnt (s : State) : Nat :=
  if s.phase = .fault then Config.anyNcnt s.draw % 2 ^ Config.counterWidth s.cfg.ncap else s.ncnt

/-- `st_xcnt`; in `FAULT` any value of the port's width (10_state.md R34, log entry 5). -/
def stXcnt (s : State) : Nat :=
  if s.phase = .fault then Config.anyXcnt s.draw % 2 ^ Config.counterWidth s.cfg.xcap else s.xcnt

/-- `st_olen`; in `FAULT` any value of the port's width (10_state.md R34, log entry 5). -/
def stOlen (s : State) : Nat :=
  if s.phase = .fault then Config.anyOlen s.draw % 2 ^ Config.counterWidth s.cfg.ocap else s.olen

/-- `cmd_ready` (44_commands.md R172): between two steps the block is working on nothing, so it is 1 in every phase. -/
def cmdReady (_ : State) : Bool := true

/-- `out_valid`: 1 exactly in `DRAIN` (44_commands.md R170). -/
def outValid (s : State) : Bool := decide (s.phase = .drain)

/-- `rp + 1 == olen` (44_commands.md R177, R182): the byte at `rp` is the last of the buffer. -/
def atLast (s : State) : Bool := decide (s.rp + 1 = s.olen)

/-- `out_data`: `OBUF[rp]` in `DRAIN`, any value elsewhere (44_commands.md R177, log entry 5). -/
def outData (s : State) : Byte :=
  if s.phase = .drain then (s.obuf.read s.rp).getD (Config.anyOutData s.draw) else Config.anyOutData s.draw

/-- `out_last`: `rp + 1 == olen` in `DRAIN`, any value elsewhere (44_commands.md R177, log entry 5). -/
def outLast (s : State) : Bool :=
  if s.phase = .drain then atLast s else Config.anyOutLast s.draw

end Sys2Proof.Machine
end

