-- ==== Sys2Proof/Machine/Output.lean ====
section
/-! DEFINITION. The output transfer POP (44_commands.md R182). -/

namespace Sys2Proof.Machine

/-- The rule of `POP` (44_commands.md R182): the byte at `rp` goes to the host, with `last` computed before `rp`
changes (90_conflicts.md C10 (b)). -/
def deliver (b : Byte) (s : State) : State :=
  { s with
    delivered := s.delivered ++ [⟨b, atLast s⟩]
    rp := s.rp + 1
    phase := if atLast s then .idle else s.phase }

/-- `POP` (44_commands.md R182). Outside `DRAIN` `out_valid` is 0, so `out_ready` makes no transfer (R172) and the block
does nothing (60_exceptions.md R219; log entry 7). -/
def execPop (s : State) : Out :=
  if outValid s then
    match s.obuf.read s.rp with
    | none => .fault (.obufUnwritten s.rp)
    | some b => .next (deliver b s)
  else .next s

end Sys2Proof.Machine
end

