-- ==== Sys2Proof/Machine/Dispatch.lean ====
section
/-! DEFINITION. exec: one arm per row of the opcode table, each one call of that row's meaning. -/

namespace Sys2Proof.Machine

def exec (i : Instr) (s : State) : Host.Outcome State Fault Refusal :=
  match i with
  | .start a => Sys2Proof.Machine.execStart a s
  | .push w => Sys2Proof.Machine.execPush w s
  | .finish => Sys2Proof.Machine.execFinish s
  | .clear => Sys2Proof.Machine.execClear s
  | .term => Sys2Proof.Machine.execTerm s
  | .gap1 => Sys2Proof.Machine.execGap1 s
  | .gap2 => Sys2Proof.Machine.execGap2 s
  | .gap3 => Sys2Proof.Machine.execGap3 s
  | .gap4 => Sys2Proof.Machine.execGap4 s
  | .gap5 => Sys2Proof.Machine.execGap5 s
  | .gap6 => Sys2Proof.Machine.execGap6 s
  | .esc => Sys2Proof.Machine.execEsc s
  | .xcode v => Sys2Proof.Machine.execXcode v s
  | .xcodeNever v => Sys2Proof.Machine.execXcodeNever v s
  | .header a c0 c1 c2 => Sys2Proof.Machine.execHeader a c0 c1 c2 s
  | .pop => Sys2Proof.Machine.execPop s

end Sys2Proof.Machine
end

