-- ==== Sys2Proof/Machine/Fetch.lean ====
section
/-! DEFINITION. What the block takes next (44_commands.md R173: one transfer is one step; 20_memory.md R69: commands are
consumed in the order of their transfers). There is no fetch from memory: what the host offers stands in `pending`. -/

namespace Sys2Proof.Machine

/-- The state after its next offer has been taken: the offers left, and a fresh draw (log entries 3, 5). -/
def takeOffer (rest : List Offer) (s : State) : State :=
  { s with pending := rest, draw := s.draw + 1 }

/-- Nothing is offered and nothing is pending: the block does nothing and all its state is kept (60_exceptions.md R219;
log entry 15). -/
def idleStep (s : State) : State := { s with draw := s.draw + 1 }

/-- What the host offers put before everything else it offers. -/
def offerFirst (o : Offer) (s : State) : State := { s with pending := o :: s.pending }

/-- The scan an emission needs: one in flight is kept, else one about to emit the word's code (log entry 8). -/
def scanFor (f : FWord) (now : Option Scan) : Option Scan :=
  match now with
  | some c => some c
  | none =>
    match decode f with
    | .ok i => scanAbout i
    | .error _ => none

/-- The word `f` stands where the next step takes it, with a scan in flight where `f` is an emission of one. -/
def placeWord (f : FWord) (s : State) : State :=
  { offerFirst (.word f) s with scan := scanFor f s.scan }

end Sys2Proof.Machine
end

