-- ==== Sys2Proof/Machine/Step.lean ====
section
/-! DEFINITION. One step (44_commands.md R173): the next offer is taken and its whole rule runs. -/

namespace Sys2Proof.Machine

/-- One step of the block. -/
def step (s : State) : Host.Outcome State Fault Refusal :=
  match s.pending with
  | [] => .next (idleStep s)
  | .reset :: rest => .next (resetRegisters (takeOffer rest s))
  | .word f :: rest =>
    match decode f with
    | .ok i => exec i (takeOffer rest s)
    | .error r => .refused (.undecodable r)

/-- The table word of `nbits` bits `w`, offered first. It stands for the host's offer of it, or, for an emission, for a
PUSH that has reached it (log entries 3, 8). -/
def State.withFetchWord (s : State) (nbits w : Nat) : State :=
  placeWord (tableWord nbits w) s

end Sys2Proof.Machine
end

