-- ==== Sys2Proof/Machine/Text.lean ====
section
/-! DEFINITION. `Text`, the host's text form of an encoded buffer (43_text.md R161, R162). It is outside the block
(00_scope.md R5): no step uses it. The construction is general knowledge by the spec's own word
(93_implementation_defined.md G1; log entry 18). -/

namespace Sys2Proof.Machine

/-- The ASCII code of `A6(i)` (43_text.md R162). -/
def sixCode (i : Nat) : Nat :=
  if i < 26 then 65 + i
  else if i < 52 then 97 + (i - 26)
  else if i < 62 then 48 + (i - 52)
  else if i = 62 then 45
  else 95

/-- `A6(i)` (43_text.md R162). -/
def sixChar (i : Nat) : Char := Char.ofNat (sixCode i)

/-- The padding character (43_text.md R162). -/
def padChar : Char := '='

/-- `Text(B)` (43_text.md R161), as its characters. -/
def textOf : List Byte → List Char
  | [] => []
  | [b0] => [sixChar (b0.toNat / 4), sixChar (b0.toNat % 4 * 16), padChar, padChar]
  | [b0, b1] =>
    [sixChar (b0.toNat / 4), sixChar (b0.toNat % 4 * 16 + b1.toNat / 16), sixChar (b1.toNat % 16 * 4), padChar]
  | b0 :: b1 :: b2 :: bs =>
    sixChar (b0.toNat / 4) :: sixChar (b0.toNat % 4 * 16 + b1.toNat / 16) ::
      sixChar (b1.toNat % 16 * 4 + b2.toNat / 64) :: sixChar (b2.toNat % 64) :: textOf bs

end Sys2Proof.Machine
end

