-- ==== Sys2Proof/Machine/Edge.lean ====
section
/-! DEFINITION. The pins at one rising edge of `clk` (44_commands.md R170, R172) and the transfers they make, in the
order the spec gives them (R174, 70 R230). -/

namespace Sys2Proof.Machine

/-- What the host drives at one rising edge (44_commands.md R170). -/
structure Edge where
  rst      : Bool
  cmdValid : Bool
  cmdOp    : BitVec 2
  cmdData  : BitVec 32
  outReady : Bool
  deriving DecidableEq, Repr

/-- The output transfer of an edge, where there is one: valid and ready both 1 (44_commands.md R172). -/
def edgePop (s : State) (e : Edge) : List Offer :=
  if e.outReady && outValid s then [.word (encode .pop)] else []

/-- The command transfer of an edge, where there is one: valid and ready both 1 (44_commands.md R172). -/
def edgeCommand (s : State) (e : Edge) : List Offer :=
  if e.cmdValid && cmdReady s then [.word (.ofCmd (cmdWord e.cmdOp e.cmdData))] else []

/-- What an edge offers: with `rst` 1 a reset and no transfer (70 R230), else the output transfer first and the command
second (44_commands.md R174). -/
def edgeOffers (s : State) (e : Edge) : List Offer :=
  if e.rst then [.reset] else edgePop s e ++ edgeCommand s e

/-- The state with what an edge offers put at the end of what is pending. -/
def offerEdge (s : State) (e : Edge) : State := { s with pending := s.pending ++ edgeOffers s e }

end Sys2Proof.Machine
end

