-- ==== Sys2Proof/Machine/Streams.lean ====
section
/-! DEFINITION. The reference functions the spec states its laws with: SetBits, popcount, Gaps (00_scope.md R15), the
closed form of SCAN (41_symbol.md R117), the difference sequence (40_delta.md R101), the streams of a transaction
(41_symbol.md R121) and the encoded buffer as a pure function (42_pack.md R146). No step uses them. -/

namespace Sys2Proof.Machine

/-- `SetBits(d)` (00_scope.md R15): the ascending list of the positions 1 to 32 of the set bits. -/
def setBits (d : Word) : List Nat :=
  (List.range 32).filterMap (fun i => if d.getLsbD i then some (i + 1) else none)

/-- `popcount(d)` (00_scope.md R15). -/
def popcount (d : Word) : Nat := (setBits d).length

/-- The distances between the positions of a list, the first from `last`. -/
def gapsFrom (last : Nat) : List Nat → List Nat
  | [] => []
  | p :: ps => (p - last) :: gapsFrom p ps

/-- `Gaps(d)` (00_scope.md R15). -/
def gaps (d : Word) : List Nat := gapsFrom 0 (setBits d)

/-- The number of gaps of `d` that are 7 or more (41_symbol.md R116). -/
def bigGaps (d : Word) : Nat := ((gaps d).filter (fun g => decide (7 ≤ g))).length

/-- The closed form of the normal codes (41_symbol.md R117): `[min(g, 7) for g in Gaps(d)] ++ [0]`. -/
def normalClosed (d : Word) : List NCode :=
  (gaps d).map (fun g => BitVec.ofNat 3 (min g 7)) ++ [0#3]

/-- The closed form of the exceptional codes (41_symbol.md R117): `[g - 7 for g in Gaps(d) if g >= 7]`. -/
def exceptionalClosed (d : Word) : List XCode :=
  ((gaps d).filter (fun g => decide (7 ≤ g))).map (fun g => BitVec.ofNat 5 (g - 7))

/-- The differences of a list of words, the first against `prev` (40_delta.md R101). -/
def diffsFrom (prev : Word) : List Word → List Word
  | [] => []
  | w :: ws => (prev ^^^ w) :: diffsFrom w ws

/-- The difference sequence of a transaction (40_delta.md R101). -/
def diffs (t : List Word) : List Word := diffsFrom 0 t

/-- `NS(t)` (41_symbol.md R121). -/
def normalStream (t : List Word) : List NCode := (diffs t).flatMap (fun d => (scan d).1)

/-- `XS(t)` (41_symbol.md R121). -/
def exceptionalStream (t : List Word) : List XCode := (diffs t).flatMap (fun d => (scan d).2)

/-- Bit `q` of a region before its padding (42_pack.md R146): bit `w - 1 - q mod w` of code `q div w`, and 0 past the
last code. -/
def regionBit {w : Nat} (codes : List (BitVec w)) (q : Nat) : Bool :=
  match codes[q / w]? with
  | some v => v.getLsbD (w - 1 - q % w)
  | none => false

/-- The byte whose bit `7 - i` is `f i` for `i` in 0 to 7. -/
def byteOfBits (f : Nat → Bool) : Byte :=
  BitVec.ofBool (f 0) ++ (BitVec.ofBool (f 1) ++ (BitVec.ofBool (f 2) ++ (BitVec.ofBool (f 3) ++
    (BitVec.ofBool (f 4) ++ (BitVec.ofBool (f 5) ++ (BitVec.ofBool (f 6) ++ BitVec.ofBool (f 7)))))))

/-- A region (42_pack.md R146): bit `7 - q mod 8` of byte `q div 8` is region bit `q`. -/
def regionBytes {w : Nat} (codes : List (BitVec w)) : List Byte :=
  (List.range (ceilDiv (w * codes.length) 8)).map (fun a => byteOfBits (fun i => regionBit codes (8 * a + i)))

/-- The header of an encoded buffer (42_pack.md R146, 30_encoding.md R88). -/
def headerOf (sel : CntSel) (alg : Byte) (count : BitVec 64) : List Byte :=
  [alg, (countField sel count).1, (countField sel count).2.1, (countField sel count).2.2]

/-- `Encode(a, t)` (42_pack.md R146). -/
def encodeBuffer (sel : CntSel) (a : Byte) (t : List Word) : List Byte :=
  headerOf sel a (BitVec.ofNat 64 t.length) ++ (regionBytes (normalStream t) ++ regionBytes (exceptionalStream t))

end Sys2Proof.Machine
end

