-- ==== Sys2Proof/Safety.lean ====
section
/-! DEFINITION. The terms the statements are made in: a sequence of operations, a transaction (00_scope.md R16), what a
host can observe (10_state.md R34, R38), the phase table (10_state.md R32) and the invariant of the block (10_state.md
R39). -/

namespace Sys2Proof.Safety

open Sys2Proof.Machine

/-- The operations of a list, one after another, up to the first that stops. -/
def execAll : List Instr → State → Out
  | [], s => .next s
  | i :: is, s =>
    match exec i s with
    | .next t => execAll is t
    | .fault f => .fault f
    | .refused r => .refused r

/-- The commands of a transaction before its output transfers (44_commands.md R190). -/
def loadAndFinish (a : Byte) (t : List Word) : List Instr :=
  .start a :: (t.map Instr.push ++ [.finish])

/-- The host operations (00_scope.md R6): the four commands and the output transfer. -/
def hostOperation : Instr → Bool
  | .start _ => true
  | .push _ => true
  | .finish => true
  | .clear => true
  | .pop => true
  | .term => false
  | .gap1 => false
  | .gap2 => false
  | .gap3 => false
  | .gap4 => false
  | .gap5 => false
  | .gap6 => false
  | .esc => false
  | .xcode _ => false
  | .xcodeNever _ => false
  | .header _ _ _ _ => false

/-- Both streams of `t` stay within the capacities (70_reset_and_hazards.md R237, H6). -/
def FitsStreams (c : Config) (t : List Word) : Prop :=
  (normalStream t).length ≤ c.ncap ∧ (exceptionalStream t).length ≤ c.xcap

/-- The whole of duty H6 (70_reset_and_hazards.md R237). -/
def Fits (c : Config) (a : Byte) (t : List Word) : Prop :=
  FitsStreams c t ∧ (encodeBuffer c.cntSel a t).length ≤ c.ocap

/-- The transfers that carry a buffer: `out_last` on its last byte and on no other (44_commands.md R182). -/
def markLast : List Byte → List OutByte
  | [] => []
  | [b] => [⟨b, true⟩]
  | b :: c :: bs => ⟨b, false⟩ :: markLast (c :: bs)

/-- Entry `k` of the memory is element `k` of the list, for every element. -/
def MemHolds {w : Nat} (m : Memory w) (l : List (BitVec w)) : Prop :=
  ∀ k, k < l.length → m.read k = l[k]?

/-- Every entry of the three memories reads in `t` as in `s`. -/
def MemSame (s t : State) : Prop :=
  (∀ a, t.nmem.read a = s.nmem.read a) ∧ (∀ a, t.xmem.read a = s.xmem.read a) ∧
    (∀ a, t.obuf.read a = s.obuf.read a)

/-- The rows that are emissions of a SCAN (41_symbol.md R111 to R113). -/
def emissionRow : Instr → Bool
  | .start _ => false
  | .push _ => false
  | .finish => false
  | .clear => false
  | .pop => false
  | .term => true
  | .gap1 => true
  | .gap2 => true
  | .gap3 => true
  | .gap4 => true
  | .gap5 => true
  | .gap6 => true
  | .esc => true
  | .xcode _ => true
  | .xcodeNever _ => false
  | .header _ _ _ _ => false

/-- A scan that looks at a set bit (41_symbol.md R111, R112). -/
def AtSetBit (c : Scan) : Prop :=
  1 ≤ c.bit ∧ c.bit ≤ 32 ∧ c.d.getLsbD (c.bit - 1) = true

/-- The row `i` appends `n` to the normal list and `x` to the exceptional list of the scan `c` in flight in `s`, and
the position looked at becomes the last one found. -/
def Emits (i : Instr) (s : State) (c : Scan) (n : List NCode) (x : List XCode) : Prop :=
  ∃ t c', exec i s = .next t ∧ t.scan = some c' ∧ c'.d = c.d ∧ c'.ns = c.ns ++ n ∧ c'.xs = c.xs ++ x ∧
    c'.lastBit = c.bit

/-- What a host can observe (10_state.md R34, R38): the phase, the fault, the four counters outside `FAULT`, and in
`DRAIN` the byte offered and whether it is the last. -/
structure Obs where
  phase    : Phase
  fault    : FaultCode
  counters : Option (BitVec 64 × Nat × Nat × Nat)
  offered  : Option (Option Byte × Bool)
  deriving DecidableEq, Repr

/-- What a host can observe of a state. -/
def obs (s : State) : Obs where
  phase    := s.phase
  fault    := s.fault
  counters := if s.phase = .fault then none else some (stCount s, stNcnt s, stXcnt s, stOlen s)
  offered  := if outValid s then some (s.obuf.read s.rp, atLast s) else none

/-- From `s₁` and `s₂` the operations give two next states that look the same, and the host receives the same bytes. -/
def SameRun (l : List Instr) (s₁ s₂ : State) : Prop :=
  ∃ t₁ t₂ out, execAll l s₁ = .next t₁ ∧ execAll l s₂ = .next t₂ ∧ obs t₁ = obs t₂ ∧
    t₁.delivered = s₁.delivered ++ out ∧ t₂.delivered = s₂.delivered ++ out

/-- The phase after an operation that does not stop, by the table of 10_state.md R32, its rows gathered by operation: in
every phase but its own legal one a command ends in `FAULT` (from `FAULT` it is discarded and stays there), `CLEAR` ends
in `IDLE`, and what the table does not name leaves the phase unchanged. -/
def nextPhase (s : State) : Instr → Phase
  | .start _ => if s.phase = .idle then .load else .fault
  | .push w =>
    if s.phase = .load ∧ s.ncnt + (scan (s.prev ^^^ w)).1.length ≤ s.cfg.ncap ∧
        s.xcnt + (scan (s.prev ^^^ w)).2.length ≤ s.cfg.xcap
    then .load else .fault
  | .finish => if s.phase = .load ∧ bufferBytes s.ncnt s.xcnt ≤ s.cfg.ocap then .drain else .fault
  | .clear => .idle
  | .pop => if s.phase = .drain ∧ s.rp + 1 = s.olen then .idle else s.phase
  | .term => s.phase
  | .gap1 => s.phase
  | .gap2 => s.phase
  | .gap3 => s.phase
  | .gap4 => s.phase
  | .gap5 => s.phase
  | .gap6 => s.phase
  | .esc => s.phase
  | .xcode _ => s.phase
  | .xcodeNever _ => s.phase
  | .header _ _ _ _ => s.phase

/-- 10_state.md R39 for a state and the words `t` of its current or most recent transaction. (b) is asked in `LOAD`
and `DRAIN`: in `IDLE` it need not hold after `CLEAR`, and nothing reads `prev`. -/
structure Holds (t : List Word) (s : State) : Prop where
  count_eq : s.count = BitVec.ofNat 64 t.length
  ncnt_eq  : s.ncnt = (normalStream t).length
  xcnt_eq  : s.xcnt = (exceptionalStream t).length
  fits     : FitsStreams s.cfg t
  nmem     : MemHolds s.nmem (normalStream t)
  xmem     : MemHolds s.xmem (exceptionalStream t)
  prev_eq  : s.phase = .load ∨ s.phase = .drain → s.prev = t.getLastD 0
  buffer   : s.phase = .drain →
    s.olen = (encodeBuffer s.cfg.cntSel s.alg t).length ∧ s.rp < s.olen ∧
      MemHolds s.obuf (encodeBuffer s.cfg.cntSel s.alg t)

/-- The invariant of the block: the parameters meet their constraints (00_scope.md R8), the memories are in canonical
form and within their capacities (20_memory.md R70), a fault is recorded exactly in `FAULT` (10_state.md R33), no scan is
in flight between operations (10_state.md R29), and outside `FAULT` the pointers are in range (10_state.md R26, R27) and
10_state.md R39 holds for some list of words. -/
structure Inv (s : State) : Prop where
  cfg_ok   : s.cfg.Ok
  nmem_wf  : s.nmem.wf = true
  xmem_wf  : s.xmem.wf = true
  obuf_wf  : s.obuf.wf = true
  nmem_in  : s.nmem.below s.cfg.ncap = true
  xmem_in  : s.xmem.below s.cfg.xcap = true
  obuf_in  : s.obuf.below s.cfg.ocap = true
  faulted  : s.fault ≠ .none ↔ s.phase = .fault
  no_scan  : s.scan = none
  pointers : s.phase ≠ .fault → s.rp ≤ s.olen ∧ s.olen ≤ s.cfg.ocap
  words    : s.phase ≠ .fault → ∃ t, Holds t s

end Sys2Proof.Safety
end

