-- ==== Sys2Proof/Certificates/Slice0/Obligations.lean ====
section
/-! DEFINITION. The statements about the block, for the provers. Each docstring names the rule of spec/ it states. -/

open Sys2Proof Sys2Proof.Machine Sys2Proof.Safety

/-- Decoding the word of a well-formed instruction gives it back (30_encoding.md R81 to R88). -/
def Obligations.DecodeOfEncode : Prop :=
  ∀ i, WellFormed i → decode (encode i) = .ok i

/-- A word that decodes, decodes to a well-formed instruction whose own word decodes to it again; outside format `CMD`,
which has ignored bits, it is that word. -/
def Obligations.EncodeOfDecode : Prop :=
  ∀ f i, decode f = .ok i → WellFormed i ∧ decode (encode i) = .ok i ∧ (f.fmt ≠ .cmd → f = encode i)

/-- 30_encoding.md R81, R83: the command word and its operands. -/
def Obligations.CommandOperands : Prop :=
  ∀ w : CmdWord,
    (w.extractLsb' 32 2 = 0#2 →
      ∃ a, decode (.ofCmd w) = .ok (.start a) ∧ ∀ i, i < 8 → a.getLsbD i = w.getLsbD i) ∧
    (w.extractLsb' 32 2 = 1#2 →
      ∃ v, decode (.ofCmd w) = .ok (.push v) ∧ ∀ i, i < 32 → v.getLsbD i = w.getLsbD i) ∧
    (w.extractLsb' 32 2 = 2#2 → decode (.ofCmd w) = .ok .finish) ∧
    (w.extractLsb' 32 2 = 3#2 → decode (.ofCmd w) = .ok .clear)

/-- 30_encoding.md R84: ignored bits. -/
def Obligations.IgnoredBitsDoNotMatter : Prop :=
  ∀ d d' : BitVec 32,
    (d.extractLsb' 0 8 = d'.extractLsb' 0 8 →
      decode (.ofCmd (cmdWord 0#2 d)) = decode (.ofCmd (cmdWord 0#2 d'))) ∧
    decode (.ofCmd (cmdWord 2#2 d)) = decode (.ofCmd (cmdWord 2#2 d')) ∧
    decode (.ofCmd (cmdWord 3#2 d)) = decode (.ofCmd (cmdWord 3#2 d'))

/-- Words written out from the spec (30_encoding.md R85, R86, R88, R94) decode to what they stand for. -/
def Obligations.WrittenWordsDecode : Prop :=
  decode ⟨.cmd, 0x0ABCDEFFF⟩ = .ok (.start 0xFF) ∧ decode ⟨.cmd, 0x100000081⟩ = .ok (.push 0x81) ∧
  decode ⟨.cmd, 0x200000000⟩ = .ok .finish ∧ decode ⟨.cmd, 0x300000000⟩ = .ok .clear ∧
  decode ⟨.nsym, 0b110⟩ = .ok .gap6 ∧ decode ⟨.nsym, 0b111⟩ = .ok .esc ∧ decode ⟨.nsym, 0⟩ = .ok .term ∧
  decode ⟨.xsym, 0b11001⟩ = .ok (.xcode 25) ∧ decode ⟨.xsym, 0b11010⟩ = .ok (.xcodeNever 26) ∧
  decode ⟨.hdr, 0x01FF0200⟩ = .ok (.header 0x01 0xFF 0x02 0x00) ∧ decode ⟨.pop, 0⟩ = .ok .pop

/-- A step takes the first thing offered and, where it is the word of a well-formed instruction, is exec of that
instruction. -/
def Obligations.StepRunsDecoded : Prop :=
  ∀ (s : State) (f : FWord) (rest : List Offer) (i : Instr),
    s.pending = .word f :: rest → decode f = .ok i → WellFormed i →
      step s = exec i { s with pending := rest, draw := s.draw + 1 }

/-- With nothing offered a step keeps the spec's state (60_exceptions.md R219; the model's choice, log entry 15); a number
that is no word of the block is refused. -/
def Obligations.StepWithoutInstruction : Prop :=
  (∀ s : State, s.pending = [] → step s = .next { s with draw := s.draw + 1 }) ∧
  (∀ (s : State) (f : FWord) (rest : List Offer) (r : Reject),
    s.pending = .word f :: rest → decode f = .error r → step s = .refused (.undecodable r))

/-- 44_commands.md R174: an output transfer and a command transfer at one edge. -/
def Obligations.OutputBeforeCommandAtOneEdge : Prop :=
  ∀ (s : State) (e : Edge) (b : Byte), s.phase = .drain → s.pending = [] → e.rst = false →
    e.outReady = true → e.cmdValid = true → s.obuf.read s.rp = some b →
      ∃ u, step (offerEdge s e) = .next u ∧ u.pending = [.word (.ofCmd (cmdWord e.cmdOp e.cmdData))] ∧
        u.delivered = s.delivered ++ [⟨b, decide (s.rp + 1 = s.olen)⟩] ∧
        (s.rp + 1 = s.olen → e.cmdOp = 0#2 →
          ∃ v, step u = .next v ∧ v.phase = .load ∧ v.fault = s.fault) ∧
        (e.cmdOp = 3#2 → ∃ v, step u = .next v ∧ v.phase = .idle ∧ v.delivered = u.delivered)

/-- 10_state.md R41: the state after reset, and that reset followed by START equals START alone. -/
def Obligations.ResetValues : Prop :=
  (State.reset.phase = .idle ∧ State.reset.fault = .none ∧ State.reset.alg = 0 ∧ State.reset.prev = 0 ∧
    State.reset.count = 0 ∧ State.reset.ncnt = 0 ∧ State.reset.xcnt = 0 ∧ State.reset.olen = 0 ∧ State.reset.rp = 0) ∧
  (cmdReady State.reset = true ∧ outValid State.reset = false ∧ stPhase State.reset = 0 ∧ stFault State.reset = 0 ∧
    stCount State.reset = 0 ∧ stNcnt State.reset = 0 ∧ stXcnt State.reset = 0 ∧ stOlen State.reset = 0) ∧
  (∀ (s : State) (a : Byte), s.phase = .idle → s.fault = .none →
    exec (.start a) (resetRegisters s) = exec (.start a) s)

/-- 70_reset_and_hazards.md R230, R232: the reset event. -/
def Obligations.ResetEvent : Prop :=
  (∀ (s : State) (rest : List Offer), s.pending = .reset :: rest →
    ∃ t, step s = .next t ∧ t.phase = .idle ∧ t.fault = .none ∧ t.alg = 0 ∧ t.prev = 0 ∧ t.count = 0 ∧
      t.ncnt = 0 ∧ t.xcnt = 0 ∧ t.olen = 0 ∧ t.rp = 0 ∧ t.nmem = s.nmem ∧ t.xmem = s.xmem ∧ t.obuf = s.obuf ∧
      t.delivered = s.delivered ∧ t.pending = rest) ∧
  (∀ (s : State) (e : Edge), e.rst = true → edgeOffers s e = [.reset]) ∧
  (∀ s : State, resetRegisters (resetRegisters s) = resetRegisters s)

/-- 70_reset_and_hazards.md R233: reset and CLEAR differ only in `alg` and `prev`, and no later host operation shows it. -/
def Obligations.ResetAndClearLookAlike : Prop :=
  ∀ s c : State, exec .clear s = .next c →
    resetRegisters s = { c with alg := 0, prev := 0 } ∧
      ∀ l : List Instr, (∀ i ∈ l, hostOperation i = true) → SameRun l (resetRegisters s) c

/-- 44_commands.md R176: START. -/
def Obligations.StartOpensTransaction : Prop :=
  ∀ (a : Byte) (s : State),
    (s.phase = .idle →
      ∃ t, exec (.start a) s = .next t ∧ t.alg = a ∧ t.prev = 0 ∧ t.count = 0 ∧ t.ncnt = 0 ∧ t.xcnt = 0 ∧
        t.olen = 0 ∧ t.rp = 0 ∧ t.phase = .load ∧ t.fault = s.fault ∧ t.nmem = s.nmem ∧ t.xmem = s.xmem ∧
        t.obuf = s.obuf) ∧
    (s.phase = .load ∨ s.phase = .drain → s.fault = .none →
      ∃ t, exec (.start a) s = .next t ∧ t.phase = .fault ∧ t.fault = .proto) ∧
    (∀ d : BitVec 32, decode (.ofCmd (cmdWord 0#2 d)) = .ok (.start (d.extractLsb' 0 8)))

/-- 44_commands.md R178: PUSH, with DELTA and SCAN. -/
def Obligations.PushAppendsCodes : Prop :=
  ∀ (w : Word) (s : State) (ns : List NCode) (xs : List XCode), scan (s.prev ^^^ w) = (ns, xs) →
    (s.phase = .load → s.ncnt + ns.length ≤ s.cfg.ncap → s.xcnt + xs.length ≤ s.cfg.xcap →
      ∃ t, exec (.push w) s = .next t ∧ t.ncnt = s.ncnt + ns.length ∧ t.xcnt = s.xcnt + xs.length ∧
        (∀ k, k < ns.length → t.nmem.read (s.ncnt + k) = ns[k]?) ∧
        (∀ k, k < xs.length → t.xmem.read (s.xcnt + k) = xs[k]?) ∧
        t.prev = w ∧ t.count = s.count + 1 ∧ t.phase = .load) ∧
    (s.phase = .load → s.fault = .none →
      s.cfg.ncap < s.ncnt + ns.length ∨ s.cfg.xcap < s.xcnt + xs.length →
      ∃ t, exec (.push w) s = .next t ∧ t.phase = .fault ∧ t.fault = .resource ∧ t.nmem = s.nmem ∧ t.xmem = s.xmem) ∧
    (s.phase = .idle ∨ s.phase = .drain → s.fault = .none →
      ∃ t, exec (.push w) s = .next t ∧ t.phase = .fault ∧ t.fault = .proto) ∧
    decode (.ofCmd (cmdWord 1#2 w)) = .ok (.push w)

/-- 44_commands.md R179: the counters after a PUSH without fault. -/
def Obligations.PushCounters : Prop :=
  ∀ (w : Word) (s t : State), s.phase = .load → exec (.push w) s = .next t → t.phase ≠ .fault →
    t.count = s.count + 1 ∧ t.ncnt = s.ncnt + (popcount (s.prev ^^^ w) + 1) ∧
      t.xcnt = s.xcnt + bigGaps (s.prev ^^^ w)

/-- 41_symbol.md R114: the zero difference value, and the repeated word that produces it. -/
def Obligations.ZeroDifferenceIsOneTerminator : Prop :=
  scan 0 = ([0], []) ∧
  ∀ s : State, s.phase = .load → s.ncnt + 1 ≤ s.cfg.ncap → s.xcnt ≤ s.cfg.xcap →
    ∃ t, exec (.push s.prev) s = .next t ∧ t.ncnt = s.ncnt + 1 ∧ t.nmem.read s.ncnt = some 0 ∧ t.xcnt = s.xcnt

/-- 42_pack.md R140 with 44_commands.md R180: FINISH puts the header, the normal region and the exceptional region into
`OBUF`. -/
def Obligations.FinishBuildsBuffer : Prop :=
  ∀ (s : State) (N : List NCode) (X : List XCode), s.phase = .load → s.ncnt = N.length → s.xcnt = X.length →
    MemHolds s.nmem N → MemHolds s.xmem X → bufferBytes N.length X.length ≤ s.cfg.ocap →
      ∃ t, exec .finish s = .next t ∧ t.phase = .drain ∧ t.rp = 0 ∧ t.olen = bufferBytes N.length X.length ∧
        (headerOf s.cfg.cntSel s.alg s.count ++ (regionBytes N ++ regionBytes X)).length = t.olen ∧
        MemHolds t.obuf (headerOf s.cfg.cntSel s.alg s.count ++ (regionBytes N ++ regionBytes X))

/-- 44_commands.md R181: what the output port offers after a FINISH without fault. -/
def Obligations.FinishOffersFirstByte : Prop :=
  ∀ s t : State, s.phase = .load → exec .finish s = .next t → t.phase ≠ .fault →
    outValid t = true ∧ outData t = t.alg ∧ outLast t = false

/-- 44_commands.md R184: CLEAR, in every phase. -/
def Obligations.ClearReturnsToIdle : Prop :=
  ∀ s : State, ∃ t, exec .clear s = .next t ∧ t.fault = .none ∧ t.count = 0 ∧ t.ncnt = 0 ∧ t.xcnt = 0 ∧
    t.olen = 0 ∧ t.rp = 0 ∧ t.phase = .idle ∧ t.alg = s.alg ∧ t.prev = s.prev ∧ t.nmem = s.nmem ∧
    t.xmem = s.xmem ∧ t.obuf = s.obuf ∧ outValid t = false ∧
    ∀ d : BitVec 32, decode (.ofCmd (cmdWord 3#2 d)) = .ok .clear

/-- 44_commands.md R182: POP, in DRAIN, where alone it can happen. -/
def Obligations.PopDelivers : Prop :=
  (∀ (s : State) (b : Byte), s.phase = .drain → s.obuf.read s.rp = some b →
    ∃ t, exec .pop s = .next t ∧ t.delivered = s.delivered ++ [⟨b, decide (s.rp + 1 = s.olen)⟩] ∧
      t.rp = s.rp + 1 ∧ t.phase = (if s.rp + 1 = s.olen then .idle else .drain) ∧ t.fault = s.fault ∧
      t.count = s.count ∧ t.ncnt = s.ncnt ∧ t.xcnt = s.xcnt ∧ t.olen = s.olen) ∧
  (∀ s : State, s.phase ≠ .drain → outValid s = false)

/-- 44_commands.md R183: the transfers that follow a FINISH deliver the buffer, in order. -/
def Obligations.DrainDeliversBuffer : Prop :=
  ∀ (s : State) (B : List Byte), s.phase = .drain → s.rp = 0 → B ≠ [] → s.olen = B.length → MemHolds s.obuf B →
    ∃ t, execAll (List.replicate s.olen .pop) s = .next t ∧ t.delivered = s.delivered ++ markLast B ∧
      t.phase = .idle ∧ t.rp = s.olen

/-- 41_symbol.md R111: the rows GAP1 to GAP6. -/
def Obligations.GapRowsEmit : Prop :=
  ∀ (s : State) (c : Scan), s.scan = some c → AtSetBit c →
    (c.bit - c.lastBit = 1 → Emits .gap1 s c [1] []) ∧ (c.bit - c.lastBit = 2 → Emits .gap2 s c [2] []) ∧
    (c.bit - c.lastBit = 3 → Emits .gap3 s c [3] []) ∧ (c.bit - c.lastBit = 4 → Emits .gap4 s c [4] []) ∧
    (c.bit - c.lastBit = 5 → Emits .gap5 s c [5] []) ∧ (c.bit - c.lastBit = 6 → Emits .gap6 s c [6] [])

/-- 41_symbol.md R112: the row ESC. -/
def Obligations.EscRowEmits : Prop :=
  ∀ (s : State) (c : Scan), s.scan = some c → AtSetBit c →
    7 ≤ c.bit - c.lastBit → c.bit - c.lastBit ≤ 32 →
      Emits .esc s c [7] [BitVec.ofNat 5 (c.bit - c.lastBit - 7)]

/-- The row XCODE is the same emission, named by its exceptional code (41_symbol.md R112; the model's choice, log entry
9). -/
def Obligations.XcodeRowEmits : Prop :=
  ∀ (s : State) (c : Scan) (v : XCode), s.scan = some c → AtSetBit c → v.toNat ≤ 25 →
    c.bit - c.lastBit = 7 + v.toNat → Emits (.xcode v) s c [7] [v]

/-- The row TERM, once the scan of all positions is over, and once only (41_symbol.md R113). That it first moves on over
clear positions (R120) and that a second one leaves the state as it is are the model's choice, log entries 10 and 8. -/
def Obligations.TermRowEmits : Prop :=
  ∀ (s : State) (c : Scan), s.scan = some c → c.ended = false → 1 ≤ c.bit →
    (∀ p, c.bit ≤ p → p ≤ 32 → c.d.getLsbD (p - 1) = false) →
      ∃ t c', exec .term s = .next t ∧ t.scan = some c' ∧ c'.ns = c.ns ++ [0] ∧ c'.xs = c.xs ∧
        exec .term t = .next t

/-- Operations that do not come up change nothing (the model's choice, log entries 7 and 8): POP outside DRAIN, where
`out_valid` is 0 (44_commands.md R172, R177), and an emission between operations, when no scan is in flight (10_state.md
R29). -/
def Obligations.OperationsThatDoNotComeUp : Prop :=
  (∀ s : State, s.phase ≠ .drain → outValid s = false ∧ exec .pop s = .next s) ∧
  (∀ (i : Instr) (s : State), emissionRow i = true → s.scan = none → exec i s = .next s)

/-- The emissions of SCAN(d), run row by row, rebuild its two lists (41_symbol.md R110 to R113, R119). -/
def Obligations.EmissionsRebuildScan : Prop :=
  ∀ (s : State) (d : Word), s.scan = some (Scan.start d) →
    ∃ t c, execAll ((scan d).1.map decodeNsym) s = .next t ∧ t.scan = some c ∧
      c.ns = (scan d).1 ∧ c.xs = (scan d).2 ∧ c.ended = true

/-- The row XCODE_NEVER is refused by name on every path (30_encoding.md R91; 93_implementation_defined.md U10; log entry
13). -/
def Obligations.XcodeNeverIsRefused : Prop :=
  ∀ (v : XCode) (s : State), exec (.xcodeNever v) s = .refused (.neverEmitted v)

/-- The row HEADER writes `alg` and the count field, whatever bytes its word has (42_pack.md R132; log entry 11). -/
def Obligations.HeaderRowWrites : Prop :=
  ∀ (a c0 c1 c2 : Byte) (s : State),
    ∃ t, exec (.header a c0 c1 c2) s = .next t ∧ MemHolds t.obuf (headerOf s.cfg.cntSel s.alg s.count)

/-- 41_symbol.md R117: SCAN in closed form. -/
def Obligations.ScanClosedForm : Prop :=
  ∀ d : Word, scan d = (normalClosed d, exceptionalClosed d)

/-- 41_symbol.md R116: the counts of one difference value. -/
def Obligations.ScanCounts : Prop :=
  (∀ d : Word, (scan d).1.length = popcount d + 1 ∧ popcount d ≤ 32 ∧ (scan d).2.length = bigGaps d ∧
    (scan d).2.length ≤ 4 ∧ (scan d).1.count 7 = (scan d).2.length ∧
    ∃ ns, (scan d).1 = ns ++ [0] ∧ (0 : NCode) ∉ ns) ∧
  (scan 0).1.length = 1 ∧ (scan 0xFFFFFFFF).1.length = 33 ∧ (scan 0x08102040).2.length = 4

/-- The gaps of a word and the codes they give stay in range (00_scope.md R15, 41_symbol.md R115, 30_encoding.md R91). -/
def Obligations.ScanBounds : Prop :=
  ∀ d : Word, (∀ g ∈ gaps d, 1 ≤ g ∧ g ≤ 32) ∧ (gaps d).sum ≤ 32 ∧ (∀ x ∈ (scan d).2, x.toNat ≤ 25)

/-- 41_symbol.md R124: the results of SCAN for chosen values. -/
def Obligations.ScanExamples : Prop :=
  scan 0x00000001 = ([1, 0], []) ∧ scan 0x00000000 = ([0], []) ∧ scan 0x00000020 = ([6, 0], []) ∧
  scan 0x00000081 = ([1, 7, 0], [0]) ∧ scan 0x00000040 = ([7, 0], [0]) ∧ scan 0x00000080 = ([7, 0], [1]) ∧
  scan 0x80000000 = ([7, 0], [25]) ∧ scan 0x80000001 = ([1, 7, 0], [24]) ∧
  scan 0x08102040 = ([7, 7, 7, 7, 0], [0, 0, 0, 0]) ∧ scan 0xFFFFFFFF = (List.replicate 32 1 ++ [0], []) ∧
  scan 0x88888888 = ([4, 4, 4, 4, 4, 4, 4, 4, 0], []) ∧ scan 0x00010001 = ([1, 7, 0], [9])

/-- The codes of a word determine it (30_encoding.md R93). -/
def Obligations.ScanIsDecodable : Prop :=
  ∀ d d' : Word, scan d = scan d' → d = d'

/-- The streams of a transaction (41_symbol.md R122): their lengths, one terminator for each word, and the range of the
exceptional codes. -/
def Obligations.StreamLaws : Prop :=
  ∀ t : List Word,
    (normalStream t).length = t.length + ((diffs t).map popcount).sum ∧
    (exceptionalStream t).length = ((diffs t).map bigGaps).sum ∧
    (normalStream t).count 0 = t.length ∧ (normalStream t).count 7 = (exceptionalStream t).length ∧
    (∀ x ∈ exceptionalStream t, x.toNat ≤ 25)

/-- The size law, and that one more word never shortens the buffer (42_pack.md R147). -/
def Obligations.EncodedSizeLaw : Prop :=
  ∀ (sel : CntSel) (a : Byte) (t : List Word) (w : Word),
    (encodeBuffer sel a t).length =
      4 + ceilDiv (3 * (t.length + ((diffs t).map popcount).sum)) 8 + ceilDiv (5 * ((diffs t).map bigGaps).sum) 8 ∧
    (encodeBuffer sel a t).length ≤ (encodeBuffer sel a (t ++ [w])).length

/-- 70_reset_and_hazards.md R238: a capacity rule that needs no knowledge of the data. -/
def Obligations.SufficientCapacity : Prop :=
  ∀ (c : Config) (a : Byte) (t : List Word),
    ((normalStream t).length ≤ 33 * t.length ∧ (exceptionalStream t).length ≤ 4 * t.length) ∧
    (t.length ≤ c.ncap / 33 → t.length ≤ c.xcap / 4 →
      4 + ceilDiv (99 * t.length) 8 + ceilDiv (20 * t.length) 8 ≤ c.ocap → Fits c a t) ∧
    (∀ d : Word, (scan d).1.length = 33 → (scan d).2 = [])

/-- 42_pack.md R134: the count field. -/
def Obligations.CountFieldBytes : Prop :=
  ∀ count : BitVec 64,
    (∀ i, i < 8 →
      (countField .hi count).1.getLsbD i = count.getLsbD (40 + i) ∧
      (countField .hi count).2.1.getLsbD i = count.getLsbD (48 + i) ∧
      (countField .hi count).2.2.getLsbD i = count.getLsbD (56 + i) ∧
      (countField .lo count).1.getLsbD i = count.getLsbD i ∧
      (countField .lo count).2.1.getLsbD i = count.getLsbD (8 + i) ∧
      (countField .lo count).2.2.getLsbD i = count.getLsbD (16 + i)) ∧
    (count.toNat < 2 ^ 40 → countField .hi count = (0, 0, 0)) ∧
    (countField .lo count).1.toNat + 256 * (countField .lo count).2.1.toNat +
      65536 * (countField .lo count).2.2.toNat = count.toNat % 2 ^ 24

/-- 42_pack.md R135: PUTBITS writes the bits of its field, most significant first, and no other bit, or raises
F_BITWRITE before it writes any. -/
def Obligations.PutBitsWritesField : Prop :=
  ∀ (w : Nat) (v : BitVec w) (olen base p : Nat) (o : Memory 8), w = 3 ∨ w = 5 →
    (olen ≤ base + (p + w - 1) / 8 → putBits olen base p v o = .raised .bitwrite) ∧
    (base + (p + w - 1) / 8 < olen → (∀ a, a < olen → (o.read a).isSome) →
      ∃ o', putBits olen base p v o = .done o' ∧
        ∀ a b, o.read a = some b → ∃ b', o'.read a = some b' ∧
          ∀ i, i < 8 →
            (∀ j, j < w → bitLoc base (p + j) = (a, i) → b'.getLsbD i = v.getLsbD (w - 1 - j)) ∧
            ((∀ j, j < w → bitLoc base (p + j) ≠ (a, i)) → b'.getLsbD i = b.getLsbD i))

/-- 42_pack.md R137: the byte form of PUTBITS. -/
def Obligations.PutBitsByteForm : Prop :=
  ∀ (olen base p : Nat) (o : Memory 8),
    (∀ v : NCode, base + (p + 2) / 8 < olen → putBits olen base p v o = putBytes base p v o) ∧
    (∀ v : XCode, base + (p + 4) / 8 < olen → putBits olen base p v o = putBytes base p v o)

/-- 10_state.md R32: every transition of `phase`, and the code of each that enters `FAULT`. -/
def Obligations.PhaseTransitions : Prop :=
  (∀ (s t : State) (i : Instr), exec i s = .next t → t.phase = nextPhase s i) ∧
  (∀ (s t : State) (i : Instr), exec i s = .next t → s.fault = .none → s.phase ≠ .fault → t.phase = .fault →
    (s.phase = .load → (∀ a, i ≠ .start a) → t.fault = .resource) ∧
    ((s.phase ≠ .load ∨ ∃ a, i = .start a) → t.fault = .proto)) ∧
  (∀ s : State, (resetRegisters s).phase = .idle)

/-- 60_exceptions.md R204: a command in a phase where it is not legal. -/
def Obligations.MisplacedCommandFaults : Prop :=
  ∀ s : State, s.fault = .none →
    (∀ a, s.phase = .load ∨ s.phase = .drain →
      ∃ t, exec (.start a) s = .next t ∧ t.phase = .fault ∧ t.fault = .proto) ∧
    (∀ w, s.phase = .idle ∨ s.phase = .drain →
      ∃ t, exec (.push w) s = .next t ∧ t.phase = .fault ∧ t.fault = .proto) ∧
    (s.phase = .idle ∨ s.phase = .drain →
      ∃ t, exec .finish s = .next t ∧ t.phase = .fault ∧ t.fault = .proto)

/-- 60_exceptions.md R202: F_RESOURCE, in exactly three situations. -/
def Obligations.ResourceFaultExactly : Prop :=
  ∀ s : State, s.fault = .none →
    (∀ w, s.phase = .load →
      s.cfg.ncap < s.ncnt + (scan (s.prev ^^^ w)).1.length ∨ s.cfg.xcap < s.xcnt + (scan (s.prev ^^^ w)).2.length →
      ∃ t, exec (.push w) s = .next t ∧ t.phase = .fault ∧ t.fault = .resource ∧ MemSame s t) ∧
    (s.phase = .load → s.cfg.ocap < bufferBytes s.ncnt s.xcnt →
      ∃ t, exec .finish s = .next t ∧ t.phase = .fault ∧ t.fault = .resource ∧ MemSame s t) ∧
    (∀ (i : Instr) (t : State), exec i s = .next t → t.fault = .resource →
      s.phase = .load ∧
        ((∃ w, i = .push w ∧
          (s.cfg.ncap < s.ncnt + (scan (s.prev ^^^ w)).1.length ∨
            s.cfg.xcap < s.xcnt + (scan (s.prev ^^^ w)).2.length)) ∨
        (i = .finish ∧ s.cfg.ocap < bufferBytes s.ncnt s.xcnt))) ∧
    (s.ncnt ≤ s.cfg.ncap → s.xcnt ≤ s.cfg.xcap → bufferBytes s.cfg.ncap s.cfg.xcap ≤ s.cfg.ocap →
      bufferBytes s.ncnt s.xcnt ≤ s.cfg.ocap)

/-- 42_pack.md R141, R148: the three writers of PACK touch disjoint bytes, all below `4 + R1 + R2`, so F_BITWRITE is
unreachable. -/
def Obligations.BitWriteFaultUnreachable : Prop :=
  (∀ (sel : CntSel) (alg : Byte) (count : BitVec 64) (o : Memory 8) (a : Nat), inHeader a = false →
    (headerBytes sel alg count o).read a = o.read a) ∧
  (∀ (s : State) (olen : Nat) (o o' : Memory 8) (a : Nat), packN s olen o = .done o' → inNormal s.ncnt a = false →
    o'.read a = o.read a) ∧
  (∀ (s : State) (olen : Nat) (o o' : Memory 8) (a : Nat), packX s olen o = .done o' →
    inExceptional s.ncnt s.xcnt a = false → o'.read a = o.read a) ∧
  (∀ ncnt xcnt a : Nat, (inHeader a && inNormal ncnt a) = false ∧ (inHeader a && inExceptional ncnt xcnt a) = false ∧
    (inNormal ncnt a && inExceptional ncnt xcnt a) = false) ∧
  (∀ ncnt xcnt k : Nat,
    (k < ncnt → lastByte 4 (3 * k) 3 ≤ 4 + normalBytes ncnt - 1 ∧ lastByte 4 (3 * k) 3 < bufferBytes ncnt xcnt) ∧
    (k < xcnt → lastByte (4 + normalBytes ncnt) (5 * k) 5 ≤ 4 + normalBytes ncnt + exceptionalBytes xcnt - 1 ∧
      lastByte (4 + normalBytes ncnt) (5 * k) 5 < bufferBytes ncnt xcnt)) ∧
  (∀ s : State, pack s ≠ .raised .bitwrite) ∧
  (∀ (i : Instr) (s t : State), exec i s = .next t → t.fault = .bitwrite → s.fault = .bitwrite)

/-- 60_exceptions.md R208: in FAULT every command but CLEAR is discarded. -/
def Obligations.FaultStateDiscards : Prop :=
  ∀ s : State, s.phase = .fault →
    (∀ a, exec (.start a) s = .next s) ∧ (∀ w, exec (.push w) s = .next s) ∧ exec .finish s = .next s ∧
    cmdReady s = true ∧ outValid s = false

/-- 60_exceptions.md R207: the fault is sticky. -/
def Obligations.FaultIsSticky : Prop :=
  ∀ s t : State, s.fault ≠ .none → step s = .next t →
    t.fault = s.fault ∨ (∃ rest, s.pending = .reset :: rest) ∨
      (∃ f rest, s.pending = .word f :: rest ∧ decode f = .ok .clear)

/-- A fault is recorded exactly in FAULT, and every step keeps that (10_state.md R33). -/
def Obligations.FaultExactlyInFaultPhase : Prop :=
  ∀ s t : State, (s.fault ≠ .none ↔ s.phase = .fault) → step s = .next t → (t.fault ≠ .none ↔ t.phase = .fault)

/-- 44_commands.md R177: the output port by phase. -/
def Obligations.OutputPort : Prop :=
  ∀ s : State,
    (s.phase = .drain → outValid s = true ∧ outLast s = decide (s.rp + 1 = s.olen) ∧
      ∀ b, s.obuf.read s.rp = some b → outData s = b) ∧
    (s.phase ≠ .drain → outValid s = false)

/-- 10_state.md R34: the status outputs, outside FAULT, in FAULT (a free value of the port's width) and after a
drain. -/
def Obligations.StatusOutputs : Prop :=
  (∀ s : State, stPhase s = phaseCode s.phase ∧ stFault s = faultCode s.fault ∧
    (s.phase ≠ .fault → stCount s = s.count ∧ stNcnt s = s.ncnt ∧ stXcnt s = s.xcnt ∧ stOlen s = s.olen) ∧
    (s.phase = .fault → stCount s = Config.anyCount s.draw ∧
      stNcnt s = Config.anyNcnt s.draw % 2 ^ Config.counterWidth s.cfg.ncap ∧
      stXcnt s = Config.anyXcnt s.draw % 2 ^ Config.counterWidth s.cfg.xcap ∧
      stOlen s = Config.anyOlen s.draw % 2 ^ Config.counterWidth s.cfg.ocap)) ∧
  (∀ s t : State, s.phase = .drain → exec .pop s = .next t →
    stCount t = stCount s ∧ stNcnt t = stNcnt s ∧ stXcnt t = stXcnt s ∧ stOlen t = stOlen s)

/-- 70_reset_and_hazards.md R236: no reset and no command changes the parameters. -/
def Obligations.ParametersFixed : Prop :=
  ∀ s t : State, step s = .next t → t.cfg = s.cfg

/-- The frame of what stores to no memory: START and CLEAR, POP, the emissions, and a command that faults (10_state.md
R40; 60_exceptions.md R206 lets the other registers stay as they were, the model's choice, log entry 6). -/
def Obligations.FrameOfRowsThatStoreNothing : Prop :=
  ∀ s t : State,
    (∀ a, s.phase = .idle → exec (.start a) s = .next t →
      MemSame s t ∧ t.cfg = s.cfg ∧ t.fault = s.fault ∧ t.pending = s.pending ∧ t.delivered = s.delivered ∧
        t.draw = s.draw) ∧
    (exec .clear s = .next t →
      MemSame s t ∧ t.cfg = s.cfg ∧ t.alg = s.alg ∧ t.prev = s.prev ∧ t.pending = s.pending ∧
        t.delivered = s.delivered ∧ t.draw = s.draw) ∧
    (exec .pop s = .next t →
      MemSame s t ∧ t.cfg = s.cfg ∧ t.alg = s.alg ∧ t.prev = s.prev ∧ t.count = s.count ∧ t.ncnt = s.ncnt ∧
        t.xcnt = s.xcnt ∧ t.olen = s.olen ∧ t.fault = s.fault ∧ t.scan = s.scan ∧ t.pending = s.pending ∧
        t.draw = s.draw) ∧
    (∀ i, emissionRow i = true → exec i s = .next t → MemSame s t ∧ t = { s with scan := t.scan }) ∧
    (∀ i, s.phase ≠ .fault → exec i s = .next t → t.phase = .fault →
      MemSame s t ∧ t = { s with fault := t.fault, phase := t.phase })

/-- The frame of PUSH without fault: it stores the word's codes at `ncnt` and at `xcnt` and nothing else (10_state.md
R40, 20_memory.md R55). -/
def Obligations.FrameOfPush : Prop :=
  ∀ (w : Word) (s t : State), s.phase = .load → exec (.push w) s = .next t → t.phase ≠ .fault →
    (∀ a, a < s.ncnt ∨ s.ncnt + (scan (delta s.prev w)).1.length ≤ a → t.nmem.read a = s.nmem.read a) ∧
    (∀ a, a < s.xcnt ∨ s.xcnt + (scan (delta s.prev w)).2.length ≤ a → t.xmem.read a = s.xmem.read a) ∧
    (∀ a, t.obuf.read a = s.obuf.read a) ∧
    t.cfg = s.cfg ∧ t.alg = s.alg ∧ t.olen = s.olen ∧ t.rp = s.rp ∧ t.phase = s.phase ∧ t.fault = s.fault ∧
    t.pending = s.pending ∧ t.delivered = s.delivered ∧ t.draw = s.draw

/-- The frame of FINISH without fault and of HEADER: they store to `OBUF` below the buffer's length and in bytes 0 to 3
(10_state.md R40, 42_pack.md R132, R140). -/
def Obligations.FrameOfFinishAndHeader : Prop :=
  (∀ s t : State, s.phase = .load → exec .finish s = .next t → t.phase ≠ .fault →
    (∀ a, bufferBytes s.ncnt s.xcnt ≤ a → t.obuf.read a = s.obuf.read a) ∧
    (∀ a, t.nmem.read a = s.nmem.read a) ∧ (∀ a, t.xmem.read a = s.xmem.read a) ∧
    t.cfg = s.cfg ∧ t.alg = s.alg ∧ t.prev = s.prev ∧ t.count = s.count ∧ t.ncnt = s.ncnt ∧ t.xcnt = s.xcnt ∧
    t.fault = s.fault ∧ t.scan = s.scan ∧ t.pending = s.pending ∧ t.delivered = s.delivered ∧ t.draw = s.draw) ∧
  (∀ (a c0 c1 c2 : Byte) (s t : State), exec (.header a c0 c1 c2) s = .next t →
    (∀ k, 4 ≤ k → t.obuf.read k = s.obuf.read k) ∧ t = { s with obuf := t.obuf })

/-- The counters of a transaction (10_state.md R39 (d) to (h)). -/
def Obligations.CountersMatchStreams : Prop :=
  ∀ (s : State) (t : List Word), Holds t s →
    s.ncnt = t.length + ((diffs t).map popcount).sum ∧ s.xcnt = ((diffs t).map bigGaps).sum ∧
    ((List.range s.ncnt).filter (fun k => decide (s.nmem.read k = some 7#3))).length = s.xcnt ∧
    ((List.range s.ncnt).filter (fun k => decide (s.nmem.read k = some 0#3))).length = t.length ∧
    t.length ≤ s.ncnt ∧ s.ncnt ≤ s.cfg.ncap ∧ s.xcnt ≤ s.cfg.xcap ∧ s.xcnt ≤ s.ncnt ∧
    (∀ k, k < s.xcnt → ∃ v, s.xmem.read k = some v ∧ v.toNat ≤ 25)

/-- The invariant holds after reset. -/
def Obligations.ResetMeetsInvariant : Prop :=
  Inv State.reset

/-- Every step keeps the invariant (10_state.md R39; 20_memory.md R70). -/
def Obligations.StepKeepsInvariant : Prop :=
  ∀ s t : State, Inv s → step s = .next t → Inv t

/-- From a state that meets the invariant no step stops, whatever the host offers (44_commands.md R192; 20_memory.md
R53; 42_pack.md R148). -/
def Obligations.InvariantNeverStops : Prop :=
  ∀ s : State, Inv s →
    (∀ f rest, s.pending = .word f :: rest → ∃ i, decode f = .ok i ∧ ∀ v, i ≠ .xcodeNever v) →
      ∃ t, step s = .next t

/-- A transaction that fits delivers its encoded buffer, byte for byte (44_commands.md R190 (a)). -/
def Obligations.TransactionDeliversEncodedBuffer : Prop :=
  ∀ (s : State) (a : Byte) (t : List Word), s.phase = .idle → Fits s.cfg a t →
    ∃ u v, execAll (loadAndFinish a t) s = .next u ∧ u.phase = .drain ∧ u.fault = s.fault ∧
      u.olen = (encodeBuffer s.cfg.cntSel a t).length ∧
      execAll (List.replicate u.olen .pop) u = .next v ∧ v.phase = .idle ∧ v.fault = s.fault ∧
      v.delivered = s.delivered ++ markLast (encodeBuffer s.cfg.cntSel a t)

/-- A transaction that does not fit faults at the first command that cannot be held, and delivers nothing (44_commands.md
R190 (b)). -/
def Obligations.OverflowingTransactionFaults : Prop :=
  ∀ (s : State) (a : Byte), s.phase = .idle → s.fault = .none →
    (∀ (t₀ : List Word) (w : Word) (t₁ : List Word), FitsStreams s.cfg t₀ → ¬ FitsStreams s.cfg (t₀ ++ [w]) →
      ∃ u, execAll (.start a :: (t₀ ++ [w]).map Instr.push) s = .next u ∧ u.phase = .fault ∧ u.fault = .resource ∧
        u.delivered = s.delivered ∧ outValid u = false ∧
        execAll (t₁.map Instr.push ++ [.finish]) u = .next u) ∧
    (∀ t : List Word, FitsStreams s.cfg t → s.cfg.ocap < (encodeBuffer s.cfg.cntSel a t).length →
      ∃ u, execAll (loadAndFinish a t) s = .next u ∧ u.phase = .fault ∧ u.fault = .resource ∧
        u.delivered = s.delivered ∧ outValid u = false)

/-- 10_state.md R45: what a transaction gives depends on nothing that came before it. -/
def Obligations.TransactionsIndependent : Prop :=
  ∀ (s₁ s₂ : State) (a : Byte) (l : List Instr), s₁.cfg = s₂.cfg → s₁.phase = .idle → s₂.phase = .idle →
    s₁.fault = .none → s₂.fault = .none → (∀ i ∈ l, hostOperation i = true) →
      SameRun (.start a :: l) s₁ s₂

/-- The text of a header-only buffer under `HI` (43_text.md R164; outside the block, log entry 18): 8 characters, the
last two the padding character. -/
def Obligations.HeaderOnlyText : Prop :=
  ∀ a : Byte, ∃ c1 c2, encodeBuffer .hi a [] = [a, 0, 0, 0] ∧
    textOf (encodeBuffer .hi a []) = [c1, c2, 'A', 'A', 'A', 'A', '=', '='] ∧
    textOf [0x01, 0, 0, 0] = "AQAAAA==".toList ∧ textOf [0xFF, 0, 0, 0] = "_wAAAA==".toList
end

