-- ==== Sys2Proof/Laws/Memory.lean ====
section
/-! SUPPORT. The laws of the memories (20_memory.md R53, R54): a read after a write, and that every memory operation keeps
the canonical form and the capacity. -/

namespace Sys2Proof.Machine

variable {w : Nat}

@[simp] theorem Memory.read_nil (a : Nat) : Memory.read ([] : Memory w) a = none := rfl

theorem Memory.read_cons (p : Nat × BitVec w) (m : Memory w) (a : Nat) :
    Memory.read (p :: m) a = if a = p.1 then some p.2 else Memory.read m a := rfl

@[simp] theorem Memory.read_write_same (m : Memory w) (a : Nat) (v : BitVec w) :
    (m.write a v).read a = some v := by
  induction m with
  | nil => simp [Memory.write, Memory.read]
  | cons p m ih =>
    obtain ⟨b, x⟩ := p
    simp only [Memory.write]
    split
    · simp [Memory.read]
    · split
      · simp [Memory.read]
      · rename_i h; simp [Memory.read, h, ih]

theorem Memory.read_write_other (m : Memory w) {a c : Nat} (v : BitVec w) (h : c ≠ a) :
    (m.write a v).read c = m.read c := by
  induction m with
  | nil => simp [Memory.write, Memory.read, h]
  | cons p m ih =>
    obtain ⟨b, x⟩ := p
    simp only [Memory.write]
    split
    · simp [Memory.read, h]
    · split
      · subst_vars; simp [Memory.read, h]
      · simp only [Memory.read, ih]

/-- A read after a write, in one equation. -/
theorem Memory.read_write (m : Memory w) (a c : Nat) (v : BitVec w) :
    (m.write a v).read c = if c = a then some v else m.read c := by
  by_cases h : c = a
  · subst h; simp
  · simp [h, Memory.read_write_other]

/-- Of two writes to one entry the second stands. -/
theorem Memory.write_write (m : Memory w) (a : Nat) (u v : BitVec w) : (m.write a u).write a v = m.write a v := by
  induction m with
  | nil => simp [Memory.write]
  | cons p m ih =>
    obtain ⟨b, x⟩ := p
    simp only [Memory.write]
    by_cases h1 : a < b
    · simp [h1, Memory.write]
    · by_cases h2 : a = b
      · simp [h2, Memory.write]
      · simp [h1, h2, Memory.write, ih]

theorem Memory.read_fill (m : Memory w) (v : BitVec w) (n c : Nat) :
    (m.fill v n).read c = if c < n then some v else m.read c := by
  induction n with
  | zero => simp [Memory.fill]
  | succ n ih =>
    simp only [Memory.fill, Memory.read_write, ih]
    by_cases h : c = n
    · subst h; simp
    · by_cases h2 : c < n
      · simp [h, h2, Nat.lt_succ_of_lt h2]
      · have : ¬ c < n + 1 := by omega
        simp [h, h2, this]

theorem Memory.wf_iff (m : Memory w) : m.wf = true ↔ (m.map Prod.fst).Pairwise (· < ·) := by
  simp [Memory.wf]

/-- The indexes a write lists are those listed before and the one written. -/
theorem Memory.mem_write_fst (m : Memory w) (a : Nat) (v : BitVec w) (c : Nat) :
    c ∈ (m.write a v).map Prod.fst ↔ c = a ∨ c ∈ m.map Prod.fst := by
  induction m with
  | nil => simp [Memory.write]
  | cons p m ih =>
    obtain ⟨b, x⟩ := p
    simp only [Memory.write]
    split
    · simp
    · split
      · subst_vars; simp
      · simp only [List.map_cons, List.mem_cons, ih]; tauto

theorem Memory.wf_write (m : Memory w) (a : Nat) (v : BitVec w) (h : m.wf = true) :
    (m.write a v).wf = true := by
  rw [Memory.wf_iff] at *
  induction m with
  | nil => simp [Memory.write]
  | cons p m ih =>
    obtain ⟨b, x⟩ := p
    simp only [List.map_cons, List.pairwise_cons] at h
    simp only [Memory.write]
    split
    · rename_i hab
      simp only [List.map_cons, List.pairwise_cons, List.mem_cons]
      refine ⟨?_, h⟩
      rintro c (rfl | hc)
      · exact hab
      · exact lt_trans hab (h.1 c hc)
    · split
      · subst_vars; simpa using h
      · simp only [List.map_cons, List.pairwise_cons]
        refine ⟨fun c hc => ?_, ih h.2⟩
        rcases (Memory.mem_write_fst m a v c).1 hc with rfl | hc
        · omega
        · exact h.1 c hc

theorem Memory.wf_fill (m : Memory w) (v : BitVec w) (n : Nat) (h : m.wf = true) :
    (m.fill v n).wf = true := by
  induction n with
  | zero => exact h
  | succ n ih => exact Memory.wf_write _ _ _ ih

theorem Memory.below_iff (m : Memory w) (cap : Nat) :
    m.below cap = true ↔ ∀ c ∈ m.map Prod.fst, c < cap := by
  simp [Memory.below]

theorem Memory.below_write (m : Memory w) {a cap : Nat} (v : BitVec w) (h : m.below cap = true) (ha : a < cap) :
    (m.write a v).below cap = true := by
  rw [Memory.below_iff] at *
  intro c hc
  rcases (Memory.mem_write_fst m a v c).1 hc with rfl | hc
  · exact ha
  · exact h c hc

theorem Memory.below_fill (m : Memory w) {n cap : Nat} (v : BitVec w) (h : m.below cap = true) (hn : n ≤ cap) :
    (m.fill v n).below cap = true := by
  induction n with
  | zero => exact h
  | succ n ih => exact Memory.below_write _ _ (ih (by omega)) (by omega)

/-- An entry is listed exactly when a read of it gives a value. -/
theorem Memory.read_isSome (m : Memory w) (a : Nat) : (m.read a).isSome ↔ a ∈ m.map Prod.fst := by
  induction m with
  | nil => simp
  | cons p m ih =>
    rw [Memory.read_cons]
    by_cases h : a = p.1
    · simp [h]
    · simp [h, ih]

/-- In canonical form, two memories that read alike are equal: equal memories are equal data. -/
theorem Memory.ext_read {m n : Memory w} (hm : m.wf = true) (hn : n.wf = true)
    (h : ∀ a, m.read a = n.read a) : m = n := by
  rw [Memory.wf_iff] at *
  induction m generalizing n with
  | nil =>
    cases n with
    | nil => rfl
    | cons q n => have := h q.1; simp [Memory.read_cons] at this
  | cons p m ih =>
    cases n with
    | nil => have := h p.1; simp [Memory.read_cons] at this
    | cons q n =>
      simp only [List.map_cons, List.pairwise_cons] at hm hn
      have hp : p.1 = q.1 := by
        rcases lt_trichotomy p.1 q.1 with hlt | heq | hgt
        · have h1 : (Memory.read (q :: n) p.1).isSome := by rw [← h]; simp [Memory.read_cons]
          rw [Memory.read_isSome] at h1
          simp only [List.map_cons, List.mem_cons] at h1
          rcases h1 with h1 | h1
          · omega
          · have := hn.1 _ h1; omega
        · exact heq
        · have h1 : (Memory.read (p :: m) q.1).isSome := by rw [h]; simp [Memory.read_cons]
          rw [Memory.read_isSome] at h1
          simp only [List.map_cons, List.mem_cons] at h1
          rcases h1 with h1 | h1
          · omega
          · have := hm.1 _ h1; omega
      have hv : p.2 = q.2 := by
        have := h p.1
        simpa [Memory.read_cons, hp] using this
      have htail : ∀ a, Memory.read m a = Memory.read n a := by
        intro a
        have h1 := h a
        rw [Memory.read_cons, Memory.read_cons, hp] at h1
        by_cases ha : a = q.1
        · subst ha
          have e1 : Memory.read m q.1 = none := by
            by_contra hne
            have := (Memory.read_isSome m q.1).1 (Option.isSome_iff_ne_none.2 hne)
            have := hm.1 _ this; omega
          have e2 : Memory.read n q.1 = none := by
            by_contra hne
            have := (Memory.read_isSome n q.1).1 (Option.isSome_iff_ne_none.2 hne)
            have := hn.1 _ this; omega
          rw [e1, e2]
        · simpa [ha] using h1
      rw [Prod.ext hp hv, ih hm.2 hn.2 htail]

end Sys2Proof.Machine
end

