-- ==== Sys2Proof/Laws/State.lean ====
section
/-! SUPPORT. One lemma per field per update of State, so that no later proof unfolds a record update. -/

namespace Sys2Proof.Machine

@[simp] theorem nAppend_cfg (s : State) (v : NCode) : (nAppend s v).cfg = s.cfg := rfl
@[simp] theorem nAppend_alg (s : State) (v : NCode) : (nAppend s v).alg = s.alg := rfl
@[simp] theorem nAppend_prev (s : State) (v : NCode) : (nAppend s v).prev = s.prev := rfl
@[simp] theorem nAppend_count (s : State) (v : NCode) : (nAppend s v).count = s.count := rfl
@[simp] theorem nAppend_ncnt (s : State) (v : NCode) : (nAppend s v).ncnt = s.ncnt + 1 := rfl
@[simp] theorem nAppend_xcnt (s : State) (v : NCode) : (nAppend s v).xcnt = s.xcnt := rfl
@[simp] theorem nAppend_olen (s : State) (v : NCode) : (nAppend s v).olen = s.olen := rfl
@[simp] theorem nAppend_rp (s : State) (v : NCode) : (nAppend s v).rp = s.rp := rfl
@[simp] theorem nAppend_phase (s : State) (v : NCode) : (nAppend s v).phase = s.phase := rfl
@[simp] theorem nAppend_fault (s : State) (v : NCode) : (nAppend s v).fault = s.fault := rfl
@[simp] theorem nAppend_nmem (s : State) (v : NCode) : (nAppend s v).nmem = s.nmem.write s.ncnt v := rfl
@[simp] theorem nAppend_xmem (s : State) (v : NCode) : (nAppend s v).xmem = s.xmem := rfl
@[simp] theorem nAppend_obuf (s : State) (v : NCode) : (nAppend s v).obuf = s.obuf := rfl
@[simp] theorem nAppend_scan (s : State) (v : NCode) : (nAppend s v).scan = s.scan := rfl
@[simp] theorem nAppend_pending (s : State) (v : NCode) : (nAppend s v).pending = s.pending := rfl
@[simp] theorem nAppend_delivered (s : State) (v : NCode) : (nAppend s v).delivered = s.delivered := rfl
@[simp] theorem nAppend_draw (s : State) (v : NCode) : (nAppend s v).draw = s.draw := rfl

@[simp] theorem xAppend_cfg (s : State) (v : XCode) : (xAppend s v).cfg = s.cfg := rfl
@[simp] theorem xAppend_alg (s : State) (v : XCode) : (xAppend s v).alg = s.alg := rfl
@[simp] theorem xAppend_prev (s : State) (v : XCode) : (xAppend s v).prev = s.prev := rfl
@[simp] theorem xAppend_count (s : State) (v : XCode) : (xAppend s v).count = s.count := rfl
@[simp] theorem xAppend_ncnt (s : State) (v : XCode) : (xAppend s v).ncnt = s.ncnt := rfl
@[simp] theorem xAppend_xcnt (s : State) (v : XCode) : (xAppend s v).xcnt = s.xcnt + 1 := rfl
@[simp] theorem xAppend_olen (s : State) (v : XCode) : (xAppend s v).olen = s.olen := rfl
@[simp] theorem xAppend_rp (s : State) (v : XCode) : (xAppend s v).rp = s.rp := rfl
@[simp] theorem xAppend_phase (s : State) (v : XCode) : (xAppend s v).phase = s.phase := rfl
@[simp] theorem xAppend_fault (s : State) (v : XCode) : (xAppend s v).fault = s.fault := rfl
@[simp] theorem xAppend_nmem (s : State) (v : XCode) : (xAppend s v).nmem = s.nmem := rfl
@[simp] theorem xAppend_xmem (s : State) (v : XCode) : (xAppend s v).xmem = s.xmem.write s.xcnt v := rfl
@[simp] theorem xAppend_obuf (s : State) (v : XCode) : (xAppend s v).obuf = s.obuf := rfl
@[simp] theorem xAppend_scan (s : State) (v : XCode) : (xAppend s v).scan = s.scan := rfl
@[simp] theorem xAppend_pending (s : State) (v : XCode) : (xAppend s v).pending = s.pending := rfl
@[simp] theorem xAppend_delivered (s : State) (v : XCode) : (xAppend s v).delivered = s.delivered := rfl
@[simp] theorem xAppend_draw (s : State) (v : XCode) : (xAppend s v).draw = s.draw := rfl

@[simp] theorem raiseFault_cfg (c : FaultCode) (s : State) : (raiseFault c s).cfg = s.cfg := rfl
@[simp] theorem raiseFault_alg (c : FaultCode) (s : State) : (raiseFault c s).alg = s.alg := rfl
@[simp] theorem raiseFault_prev (c : FaultCode) (s : State) : (raiseFault c s).prev = s.prev := rfl
@[simp] theorem raiseFault_count (c : FaultCode) (s : State) : (raiseFault c s).count = s.count := rfl
@[simp] theorem raiseFault_ncnt (c : FaultCode) (s : State) : (raiseFault c s).ncnt = s.ncnt := rfl
@[simp] theorem raiseFault_xcnt (c : FaultCode) (s : State) : (raiseFault c s).xcnt = s.xcnt := rfl
@[simp] theorem raiseFault_olen (c : FaultCode) (s : State) : (raiseFault c s).olen = s.olen := rfl
@[simp] theorem raiseFault_rp (c : FaultCode) (s : State) : (raiseFault c s).rp = s.rp := rfl
@[simp] theorem raiseFault_phase (c : FaultCode) (s : State) : (raiseFault c s).phase = .fault := rfl
@[simp] theorem raiseFault_fault (c : FaultCode) (s : State) : (raiseFault c s).fault = if s.fault = .none then c else s.fault := rfl
@[simp] theorem raiseFault_nmem (c : FaultCode) (s : State) : (raiseFault c s).nmem = s.nmem := rfl
@[simp] theorem raiseFault_xmem (c : FaultCode) (s : State) : (raiseFault c s).xmem = s.xmem := rfl
@[simp] theorem raiseFault_obuf (c : FaultCode) (s : State) : (raiseFault c s).obuf = s.obuf := rfl
@[simp] theorem raiseFault_scan (c : FaultCode) (s : State) : (raiseFault c s).scan = s.scan := rfl
@[simp] theorem raiseFault_pending (c : FaultCode) (s : State) : (raiseFault c s).pending = s.pending := rfl
@[simp] theorem raiseFault_delivered (c : FaultCode) (s : State) : (raiseFault c s).delivered = s.delivered := rfl
@[simp] theorem raiseFault_draw (c : FaultCode) (s : State) : (raiseFault c s).draw = s.draw := rfl

@[simp] theorem leaveFault_cfg (s : State) : (leaveFault s).cfg = s.cfg := rfl
@[simp] theorem leaveFault_alg (s : State) : (leaveFault s).alg = s.alg := rfl
@[simp] theorem leaveFault_prev (s : State) : (leaveFault s).prev = s.prev := rfl
@[simp] theorem leaveFault_count (s : State) : (leaveFault s).count = 0 := rfl
@[simp] theorem leaveFault_ncnt (s : State) : (leaveFault s).ncnt = 0 := rfl
@[simp] theorem leaveFault_xcnt (s : State) : (leaveFault s).xcnt = 0 := rfl
@[simp] theorem leaveFault_olen (s : State) : (leaveFault s).olen = 0 := rfl
@[simp] theorem leaveFault_rp (s : State) : (leaveFault s).rp = 0 := rfl
@[simp] theorem leaveFault_phase (s : State) : (leaveFault s).phase = .idle := rfl
@[simp] theorem leaveFault_fault (s : State) : (leaveFault s).fault = .none := rfl
@[simp] theorem leaveFault_nmem (s : State) : (leaveFault s).nmem = s.nmem := rfl
@[simp] theorem leaveFault_xmem (s : State) : (leaveFault s).xmem = s.xmem := rfl
@[simp] theorem leaveFault_obuf (s : State) : (leaveFault s).obuf = s.obuf := rfl
@[simp] theorem leaveFault_scan (s : State) : (leaveFault s).scan = none := rfl
@[simp] theorem leaveFault_pending (s : State) : (leaveFault s).pending = s.pending := rfl
@[simp] theorem leaveFault_delivered (s : State) : (leaveFault s).delivered = s.delivered := rfl
@[simp] theorem leaveFault_draw (s : State) : (leaveFault s).draw = s.draw := rfl

@[simp] theorem resetRegisters_cfg (s : State) : (resetRegisters s).cfg = s.cfg := rfl
@[simp] theorem resetRegisters_alg (s : State) : (resetRegisters s).alg = 0 := rfl
@[simp] theorem resetRegisters_prev (s : State) : (resetRegisters s).prev = 0 := rfl
@[simp] theorem resetRegisters_count (s : State) : (resetRegisters s).count = 0 := rfl
@[simp] theorem resetRegisters_ncnt (s : State) : (resetRegisters s).ncnt = 0 := rfl
@[simp] theorem resetRegisters_xcnt (s : State) : (resetRegisters s).xcnt = 0 := rfl
@[simp] theorem resetRegisters_olen (s : State) : (resetRegisters s).olen = 0 := rfl
@[simp] theorem resetRegisters_rp (s : State) : (resetRegisters s).rp = 0 := rfl
@[simp] theorem resetRegisters_phase (s : State) : (resetRegisters s).phase = .idle := rfl
@[simp] theorem resetRegisters_fault (s : State) : (resetRegisters s).fault = .none := rfl
@[simp] theorem resetRegisters_nmem (s : State) : (resetRegisters s).nmem = s.nmem := rfl
@[simp] theorem resetRegisters_xmem (s : State) : (resetRegisters s).xmem = s.xmem := rfl
@[simp] theorem resetRegisters_obuf (s : State) : (resetRegisters s).obuf = s.obuf := rfl
@[simp] theorem resetRegisters_scan (s : State) : (resetRegisters s).scan = none := rfl
@[simp] theorem resetRegisters_pending (s : State) : (resetRegisters s).pending = s.pending := rfl
@[simp] theorem resetRegisters_delivered (s : State) : (resetRegisters s).delivered = s.delivered := rfl
@[simp] theorem resetRegisters_draw (s : State) : (resetRegisters s).draw = s.draw := rfl

@[simp] theorem openTransaction_cfg (a : Byte) (s : State) : (openTransaction a s).cfg = s.cfg := rfl
@[simp] theorem openTransaction_alg (a : Byte) (s : State) : (openTransaction a s).alg = a := rfl
@[simp] theorem openTransaction_prev (a : Byte) (s : State) : (openTransaction a s).prev = 0 := rfl
@[simp] theorem openTransaction_count (a : Byte) (s : State) : (openTransaction a s).count = 0 := rfl
@[simp] theorem openTransaction_ncnt (a : Byte) (s : State) : (openTransaction a s).ncnt = 0 := rfl
@[simp] theorem openTransaction_xcnt (a : Byte) (s : State) : (openTransaction a s).xcnt = 0 := rfl
@[simp] theorem openTransaction_olen (a : Byte) (s : State) : (openTransaction a s).olen = 0 := rfl
@[simp] theorem openTransaction_rp (a : Byte) (s : State) : (openTransaction a s).rp = 0 := rfl
@[simp] theorem openTransaction_phase (a : Byte) (s : State) : (openTransaction a s).phase = .load := rfl
@[simp] theorem openTransaction_fault (a : Byte) (s : State) : (openTransaction a s).fault = s.fault := rfl
@[simp] theorem openTransaction_nmem (a : Byte) (s : State) : (openTransaction a s).nmem = s.nmem := rfl
@[simp] theorem openTransaction_xmem (a : Byte) (s : State) : (openTransaction a s).xmem = s.xmem := rfl
@[simp] theorem openTransaction_obuf (a : Byte) (s : State) : (openTransaction a s).obuf = s.obuf := rfl
@[simp] theorem openTransaction_scan (a : Byte) (s : State) : (openTransaction a s).scan = none := rfl
@[simp] theorem openTransaction_pending (a : Byte) (s : State) : (openTransaction a s).pending = s.pending := rfl
@[simp] theorem openTransaction_delivered (a : Byte) (s : State) : (openTransaction a s).delivered = s.delivered := rfl
@[simp] theorem openTransaction_draw (a : Byte) (s : State) : (openTransaction a s).draw = s.draw := rfl

@[simp] theorem deliver_cfg (b : Byte) (s : State) : (deliver b s).cfg = s.cfg := rfl
@[simp] theorem deliver_alg (b : Byte) (s : State) : (deliver b s).alg = s.alg := rfl
@[simp] theorem deliver_prev (b : Byte) (s : State) : (deliver b s).prev = s.prev := rfl
@[simp] theorem deliver_count (b : Byte) (s : State) : (deliver b s).count = s.count := rfl
@[simp] theorem deliver_ncnt (b : Byte) (s : State) : (deliver b s).ncnt = s.ncnt := rfl
@[simp] theorem deliver_xcnt (b : Byte) (s : State) : (deliver b s).xcnt = s.xcnt := rfl
@[simp] theorem deliver_olen (b : Byte) (s : State) : (deliver b s).olen = s.olen := rfl
@[simp] theorem deliver_rp (b : Byte) (s : State) : (deliver b s).rp = s.rp + 1 := rfl
@[simp] theorem deliver_phase (b : Byte) (s : State) : (deliver b s).phase = if atLast s then .idle else s.phase := rfl
@[simp] theorem deliver_fault (b : Byte) (s : State) : (deliver b s).fault = s.fault := rfl
@[simp] theorem deliver_nmem (b : Byte) (s : State) : (deliver b s).nmem = s.nmem := rfl
@[simp] theorem deliver_xmem (b : Byte) (s : State) : (deliver b s).xmem = s.xmem := rfl
@[simp] theorem deliver_obuf (b : Byte) (s : State) : (deliver b s).obuf = s.obuf := rfl
@[simp] theorem deliver_scan (b : Byte) (s : State) : (deliver b s).scan = s.scan := rfl
@[simp] theorem deliver_pending (b : Byte) (s : State) : (deliver b s).pending = s.pending := rfl
@[simp] theorem deliver_delivered (b : Byte) (s : State) : (deliver b s).delivered = s.delivered ++ [⟨b, atLast s⟩] := rfl
@[simp] theorem deliver_draw (b : Byte) (s : State) : (deliver b s).draw = s.draw := rfl

@[simp] theorem onScan_cfg (f : Scan → Scan) (s : State) : (onScan f s).cfg = s.cfg := rfl
@[simp] theorem onScan_alg (f : Scan → Scan) (s : State) : (onScan f s).alg = s.alg := rfl
@[simp] theorem onScan_prev (f : Scan → Scan) (s : State) : (onScan f s).prev = s.prev := rfl
@[simp] theorem onScan_count (f : Scan → Scan) (s : State) : (onScan f s).count = s.count := rfl
@[simp] theorem onScan_ncnt (f : Scan → Scan) (s : State) : (onScan f s).ncnt = s.ncnt := rfl
@[simp] theorem onScan_xcnt (f : Scan → Scan) (s : State) : (onScan f s).xcnt = s.xcnt := rfl
@[simp] theorem onScan_olen (f : Scan → Scan) (s : State) : (onScan f s).olen = s.olen := rfl
@[simp] theorem onScan_rp (f : Scan → Scan) (s : State) : (onScan f s).rp = s.rp := rfl
@[simp] theorem onScan_phase (f : Scan → Scan) (s : State) : (onScan f s).phase = s.phase := rfl
@[simp] theorem onScan_fault (f : Scan → Scan) (s : State) : (onScan f s).fault = s.fault := rfl
@[simp] theorem onScan_nmem (f : Scan → Scan) (s : State) : (onScan f s).nmem = s.nmem := rfl
@[simp] theorem onScan_xmem (f : Scan → Scan) (s : State) : (onScan f s).xmem = s.xmem := rfl
@[simp] theorem onScan_obuf (f : Scan → Scan) (s : State) : (onScan f s).obuf = s.obuf := rfl
@[simp] theorem onScan_scan (f : Scan → Scan) (s : State) : (onScan f s).scan = s.scan.map f := rfl
@[simp] theorem onScan_pending (f : Scan → Scan) (s : State) : (onScan f s).pending = s.pending := rfl
@[simp] theorem onScan_delivered (f : Scan → Scan) (s : State) : (onScan f s).delivered = s.delivered := rfl
@[simp] theorem onScan_draw (f : Scan → Scan) (s : State) : (onScan f s).draw = s.draw := rfl

@[simp] theorem takeOffer_cfg (rest : List Offer) (s : State) : (takeOffer rest s).cfg = s.cfg := rfl
@[simp] theorem takeOffer_alg (rest : List Offer) (s : State) : (takeOffer rest s).alg = s.alg := rfl
@[simp] theorem takeOffer_prev (rest : List Offer) (s : State) : (takeOffer rest s).prev = s.prev := rfl
@[simp] theorem takeOffer_count (rest : List Offer) (s : State) : (takeOffer rest s).count = s.count := rfl
@[simp] theorem takeOffer_ncnt (rest : List Offer) (s : State) : (takeOffer rest s).ncnt = s.ncnt := rfl
@[simp] theorem takeOffer_xcnt (rest : List Offer) (s : State) : (takeOffer rest s).xcnt = s.xcnt := rfl
@[simp] theorem takeOffer_olen (rest : List Offer) (s : State) : (takeOffer rest s).olen = s.olen := rfl
@[simp] theorem takeOffer_rp (rest : List Offer) (s : State) : (takeOffer rest s).rp = s.rp := rfl
@[simp] theorem takeOffer_phase (rest : List Offer) (s : State) : (takeOffer rest s).phase = s.phase := rfl
@[simp] theorem takeOffer_fault (rest : List Offer) (s : State) : (takeOffer rest s).fault = s.fault := rfl
@[simp] theorem takeOffer_nmem (rest : List Offer) (s : State) : (takeOffer rest s).nmem = s.nmem := rfl
@[simp] theorem takeOffer_xmem (rest : List Offer) (s : State) : (takeOffer rest s).xmem = s.xmem := rfl
@[simp] theorem takeOffer_obuf (rest : List Offer) (s : State) : (takeOffer rest s).obuf = s.obuf := rfl
@[simp] theorem takeOffer_scan (rest : List Offer) (s : State) : (takeOffer rest s).scan = s.scan := rfl
@[simp] theorem takeOffer_pending (rest : List Offer) (s : State) : (takeOffer rest s).pending = rest := rfl
@[simp] theorem takeOffer_delivered (rest : List Offer) (s : State) : (takeOffer rest s).delivered = s.delivered := rfl
@[simp] theorem takeOffer_draw (rest : List Offer) (s : State) : (takeOffer rest s).draw = s.draw + 1 := rfl

@[simp] theorem idleStep_cfg (s : State) : (idleStep s).cfg = s.cfg := rfl
@[simp] theorem idleStep_alg (s : State) : (idleStep s).alg = s.alg := rfl
@[simp] theorem idleStep_prev (s : State) : (idleStep s).prev = s.prev := rfl
@[simp] theorem idleStep_count (s : State) : (idleStep s).count = s.count := rfl
@[simp] theorem idleStep_ncnt (s : State) : (idleStep s).ncnt = s.ncnt := rfl
@[simp] theorem idleStep_xcnt (s : State) : (idleStep s).xcnt = s.xcnt := rfl
@[simp] theorem idleStep_olen (s : State) : (idleStep s).olen = s.olen := rfl
@[simp] theorem idleStep_rp (s : State) : (idleStep s).rp = s.rp := rfl
@[simp] theorem idleStep_phase (s : State) : (idleStep s).phase = s.phase := rfl
@[simp] theorem idleStep_fault (s : State) : (idleStep s).fault = s.fault := rfl
@[simp] theorem idleStep_nmem (s : State) : (idleStep s).nmem = s.nmem := rfl
@[simp] theorem idleStep_xmem (s : State) : (idleStep s).xmem = s.xmem := rfl
@[simp] theorem idleStep_obuf (s : State) : (idleStep s).obuf = s.obuf := rfl
@[simp] theorem idleStep_scan (s : State) : (idleStep s).scan = s.scan := rfl
@[simp] theorem idleStep_pending (s : State) : (idleStep s).pending = s.pending := rfl
@[simp] theorem idleStep_delivered (s : State) : (idleStep s).delivered = s.delivered := rfl
@[simp] theorem idleStep_draw (s : State) : (idleStep s).draw = s.draw + 1 := rfl

@[simp] theorem placeWord_cfg (f : FWord) (s : State) : (placeWord f s).cfg = s.cfg := rfl
@[simp] theorem placeWord_alg (f : FWord) (s : State) : (placeWord f s).alg = s.alg := rfl
@[simp] theorem placeWord_prev (f : FWord) (s : State) : (placeWord f s).prev = s.prev := rfl
@[simp] theorem placeWord_count (f : FWord) (s : State) : (placeWord f s).count = s.count := rfl
@[simp] theorem placeWord_ncnt (f : FWord) (s : State) : (placeWord f s).ncnt = s.ncnt := rfl
@[simp] theorem placeWord_xcnt (f : FWord) (s : State) : (placeWord f s).xcnt = s.xcnt := rfl
@[simp] theorem placeWord_olen (f : FWord) (s : State) : (placeWord f s).olen = s.olen := rfl
@[simp] theorem placeWord_rp (f : FWord) (s : State) : (placeWord f s).rp = s.rp := rfl
@[simp] theorem placeWord_phase (f : FWord) (s : State) : (placeWord f s).phase = s.phase := rfl
@[simp] theorem placeWord_fault (f : FWord) (s : State) : (placeWord f s).fault = s.fault := rfl
@[simp] theorem placeWord_nmem (f : FWord) (s : State) : (placeWord f s).nmem = s.nmem := rfl
@[simp] theorem placeWord_xmem (f : FWord) (s : State) : (placeWord f s).xmem = s.xmem := rfl
@[simp] theorem placeWord_obuf (f : FWord) (s : State) : (placeWord f s).obuf = s.obuf := rfl
@[simp] theorem placeWord_scan (f : FWord) (s : State) : (placeWord f s).scan = scanFor f s.scan := rfl
@[simp] theorem placeWord_pending (f : FWord) (s : State) : (placeWord f s).pending = .word f :: s.pending := rfl
@[simp] theorem placeWord_delivered (f : FWord) (s : State) : (placeWord f s).delivered = s.delivered := rfl
@[simp] theorem placeWord_draw (f : FWord) (s : State) : (placeWord f s).draw = s.draw := rfl

end Sys2Proof.Machine
end

