-- ==== Sys2Proof/Laws/Ops.lean ====
section
/-! SUPPORT. What the shared operations can do: one bit of a byte, the appends, the legality test. -/

namespace Sys2Proof.Machine

/-- `setBit` changes one bit of a byte and no other. -/
theorem setBit_getLsbD (b : Byte) {i j : Nat} (x : Bool) (hi : i < 8) :
    (setBit b i x).getLsbD j = if j = i then x else b.getLsbD j := by
  have h1 : ∀ k, k < 8 → (1#8 <<< i).getLsbD k = decide (k = i) := by
    intro k hk
    rw [BitVec.getLsbD_shiftLeft, BitVec.getLsbD_one]
    by_cases h : k < i
    · simp [h, show k ≠ i by omega]
    · by_cases h2 : k = i
      · simp [h2, hi]
      · simp [hk, h, h2]; omega
  unfold setBit
  by_cases hj : j < 8
  · cases x
    · rw [if_neg (by simp), BitVec.getLsbD_and, BitVec.getLsbD_not, h1 j hj]
      by_cases h : j = i <;> simp [h, hi, hj]
    · rw [if_pos rfl, BitVec.getLsbD_or, h1 j hj]
      by_cases h : j = i <;> simp [h]
  · have hji : j ≠ i := by omega
    rw [if_neg hji, BitVec.getLsbD_of_ge b j (by omega), BitVec.getLsbD_of_ge _ j (by omega)]

/-- Two bits of a region have the same place only if they are the same bit (20_memory.md R56). -/
theorem bitLoc_inj {base p q : Nat} (h : bitLoc base p = bitLoc base q) : p = q := by
  simp only [bitLoc, Prod.mk.injEq] at h; omega

theorem bitLoc_snd_lt (base p : Nat) : (bitLoc base p).2 < 8 := by simp only [bitLoc]; omega

/-- The appends to `NMEM` write `nmem` and `ncnt` only. -/
theorem nAppends_eq (s : State) (ns : List NCode) :
    nAppends s ns = { s with nmem := (nAppends s ns).nmem, ncnt := s.ncnt + ns.length } := by
  induction ns generalizing s with
  | nil => rfl
  | cons v ns ih =>
    have h : nAppends s (v :: ns) = nAppends (nAppend s v) ns := rfl
    rw [h, ih]; simp [nAppend]; omega

/-- The appends to `XMEM` write `xmem` and `xcnt` only. -/
theorem xAppends_eq (s : State) (xs : List XCode) :
    xAppends s xs = { s with xmem := (xAppends s xs).xmem, xcnt := s.xcnt + xs.length } := by
  induction xs generalizing s with
  | nil => rfl
  | cons v xs ih =>
    have h : xAppends s (v :: xs) = xAppends (xAppend s v) xs := rfl
    rw [h, ih]; simp [xAppend]; omega

/-- What `NMEM` reads as after the appends. -/
theorem nAppends_read (s : State) (ns : List NCode) (k : Nat) :
    (nAppends s ns).nmem.read k =
      if s.ncnt ≤ k ∧ k < s.ncnt + ns.length then ns[k - s.ncnt]? else s.nmem.read k := by
  induction ns generalizing s with
  | nil => simp [nAppends]
  | cons v ns ih =>
    have h : nAppends s (v :: ns) = nAppends (nAppend s v) ns := rfl
    rw [h, ih]
    simp only [nAppend_ncnt, nAppend_nmem, Memory.read_write, List.length_cons]
    by_cases h1 : k = s.ncnt
    · subst h1; simp
    · by_cases h2 : s.ncnt + 1 ≤ k ∧ k < s.ncnt + 1 + ns.length
      · have h3 : s.ncnt ≤ k ∧ k < s.ncnt + (ns.length + 1) := by omega
        have h4 : k - s.ncnt = (k - (s.ncnt + 1)) + 1 := by omega
        simp [h2, h3, h4]
      · have h3 : ¬(s.ncnt ≤ k ∧ k < s.ncnt + (ns.length + 1)) := by omega
        simp only [h2, h3, h1, if_false]

/-- What `XMEM` reads as after the appends. -/
theorem xAppends_read (s : State) (xs : List XCode) (k : Nat) :
    (xAppends s xs).xmem.read k =
      if s.xcnt ≤ k ∧ k < s.xcnt + xs.length then xs[k - s.xcnt]? else s.xmem.read k := by
  induction xs generalizing s with
  | nil => simp [xAppends]
  | cons v xs ih =>
    have h : xAppends s (v :: xs) = xAppends (xAppend s v) xs := rfl
    rw [h, ih]
    simp only [xAppend_xcnt, xAppend_xmem, Memory.read_write, List.length_cons]
    by_cases h1 : k = s.xcnt
    · subst h1; simp
    · by_cases h2 : s.xcnt + 1 ≤ k ∧ k < s.xcnt + 1 + xs.length
      · have h3 : s.xcnt ≤ k ∧ k < s.xcnt + (xs.length + 1) := by omega
        have h4 : k - s.xcnt = (k - (s.xcnt + 1)) + 1 := by omega
        simp [h2, h3, h4]
      · have h3 : ¬(s.xcnt ≤ k ∧ k < s.xcnt + (xs.length + 1)) := by omega
        simp only [h2, h3, h1, if_false]

theorem nAppends_wf (s : State) (ns : List NCode) (h : s.nmem.wf = true) : (nAppends s ns).nmem.wf = true := by
  induction ns generalizing s with
  | nil => exact h
  | cons v ns ih => exact ih (nAppend s v) (Memory.wf_write _ _ _ h)

theorem xAppends_wf (s : State) (xs : List XCode) (h : s.xmem.wf = true) : (xAppends s xs).xmem.wf = true := by
  induction xs generalizing s with
  | nil => exact h
  | cons v xs ih => exact ih (xAppend s v) (Memory.wf_write _ _ _ h)

theorem nAppends_below (s : State) (ns : List NCode) {cap : Nat} (h : s.nmem.below cap = true)
    (hc : s.ncnt + ns.length ≤ cap) : (nAppends s ns).nmem.below cap = true := by
  induction ns generalizing s with
  | nil => exact h
  | cons v ns ih =>
    simp only [List.length_cons] at hc
    exact ih (nAppend s v) (Memory.below_write _ _ h (by omega)) (by simp only [nAppend_ncnt]; omega)

theorem xAppends_below (s : State) (xs : List XCode) {cap : Nat} (h : s.xmem.below cap = true)
    (hc : s.xcnt + xs.length ≤ cap) : (xAppends s xs).xmem.below cap = true := by
  induction xs generalizing s with
  | nil => exact h
  | cons v xs ih =>
    simp only [List.length_cons] at hc
    exact ih (xAppend s v) (Memory.below_write _ _ h (by omega)) (by simp only [xAppend_xcnt]; omega)

/-- Every way the legality test of a command can go (44_commands.md R175). -/
theorem inPhase_cases (legal : Phase) (s : State) (rule : Out) :
    (s.phase = .fault ∧ inPhase legal s rule = .next s) ∨
    (s.phase ≠ .fault ∧ s.phase = legal ∧ inPhase legal s rule = rule) ∨
    (s.phase ≠ .fault ∧ s.phase ≠ legal ∧ inPhase legal s rule = .next (raiseFault .proto s)) := by
  unfold inPhase
  by_cases h : s.phase = .fault
  · simp [h]
  · by_cases h2 : s.phase = legal
    · simp [h2, h2 ▸ h]
    · simp [h, h2]

/-- In its legal phase a command's rule runs. -/
theorem inPhase_legal {legal : Phase} {s : State} (rule : Out) (h : s.phase = legal) (hl : legal ≠ .fault) :
    inPhase legal s rule = rule := by
  simp [inPhase, h, hl]

/-- In `FAULT` a command is discarded (60_exceptions.md R208). -/
theorem inPhase_fault (legal : Phase) {s : State} (rule : Out) (h : s.phase = .fault) :
    inPhase legal s rule = .next s := by
  simp [inPhase, h]

/-- Outside its legal phase and outside `FAULT` a command raises `F_PROTO` (60_exceptions.md R204). -/
theorem inPhase_proto {legal : Phase} {s : State} (rule : Out) (h : s.phase ≠ legal) (hf : s.phase ≠ .fault) :
    inPhase legal s rule = .next (raiseFault .proto s) := by
  simp [inPhase, h, hf]

end Sys2Proof.Machine
end

