-- ==== Sys2Proof/Laws/Pack.lean ====
section
/-! SUPPORT. What the packing operations can do (42_pack.md), told by absolute bits of `OBUF`: bit `p` of a region at byte
`base` is absolute bit `8 * base + p`, counted from bit 7 of byte 0 (20_memory.md R56). -/

namespace Sys2Proof.Machine

/-- Absolute bit `P` of `OBUF`: bit `7 - P mod 8` of byte `P div 8`. -/
def absBit (o : Memory 8) (P : Nat) : Option Bool :=
  (o.read (P / 8)).map (fun b => b.getLsbD (7 - P % 8))

theorem bitLoc_eq (base p : Nat) : bitLoc base p = ((8 * base + p) / 8, 7 - (8 * base + p) % 8) := by
  simp only [bitLoc, Prod.mk.injEq]; omega

/-- One bit written: that absolute bit changes and no other. -/
theorem absBit_write (o : Memory 8) {P : Nat} {b : Byte} (x : Bool) (h : o.read (P / 8) = some b) (Q : Nat) :
    absBit (o.write (P / 8) (setBit b (7 - P % 8) x)) Q = if Q = P then some x else absBit o Q := by
  unfold absBit
  rw [Memory.read_write]
  by_cases hq : Q / 8 = P / 8
  · rw [if_pos hq, Option.map_some, setBit_getLsbD b x (by omega)]
    by_cases hp : Q = P
    · simp [hp]
    · rw [if_neg (by omega), if_neg hp, hq, h]; rfl
  · rw [if_neg hq, if_neg (by rintro rfl; exact hq rfl)]

/-- The bits of `OBUF` decide its bytes. -/
theorem read_of_absBit {o o' : Memory 8} (a : Nat) (h : ∀ i, i < 8 → absBit o (8 * a + i) = absBit o' (8 * a + i)) :
    o.read a = o'.read a := by
  have hd : ∀ i, i < 8 → (8 * a + i) / 8 = a := by intro i hi; omega
  have hm : ∀ i, i < 8 → (8 * a + i) % 8 = i := by intro i hi; omega
  have h' : ∀ i, i < 8 → (o.read a).map (fun b => b.getLsbD (7 - i)) = (o'.read a).map (fun b => b.getLsbD (7 - i)) := by
    intro i hi; have := h i hi; simpa only [absBit, hd i hi, hm i hi] using this
  cases h1 : o.read a with
  | none => have := h' 0 (by omega); rw [h1] at this; cases h2 : o'.read a <;> simp_all
  | some b =>
    cases h2 : o'.read a with
    | none => have := h' 0 (by omega); simp [h1, h2] at this
    | some b' =>
      congr 1
      apply BitVec.eq_of_getLsbD_eq
      intro i hi
      have := h' (7 - i) (by omega)
      rw [h1, h2, show 7 - (7 - i) = i by omega] at this
      simpa using this

/-- What every packing operation keeps of `OBUF`: which bytes have a value, the canonical form, the capacity. -/
structure SameShape (o o' : Memory 8) : Prop where
  some_iff : ∀ a, (o'.read a).isSome = (o.read a).isSome
  wf       : o.wf = true → o'.wf = true
  below    : ∀ cap, o.below cap = true → o'.below cap = true

theorem SameShape.refl (o : Memory 8) : SameShape o o := ⟨fun _ => rfl, id, fun _ => id⟩

theorem SameShape.trans {o o' o'' : Memory 8} (h : SameShape o o') (h' : SameShape o' o'') : SameShape o o'' :=
  ⟨fun a => (h'.some_iff a).trans (h.some_iff a), h'.wf ∘ h.wf, fun cap => h'.below cap ∘ h.below cap⟩

/-- Rewriting a byte that has a value keeps the shape. -/
theorem sameShape_write (o : Memory 8) {a : Nat} (b : Byte) (h : (o.read a).isSome) : SameShape o (o.write a b) := by
  refine ⟨fun c => ?_, Memory.wf_write o a b, fun cap hc => ?_⟩
  · rw [Memory.read_write]
    by_cases hca : c = a
    · subst hca; simp [h]
    · simp [hca]
  · refine Memory.below_write o b hc ?_
    exact (Memory.below_iff o cap).1 hc a ((Memory.read_isSome o a).1 h)

/-- What the bit loop of PUTBITS does where every byte it touches has a value (42_pack.md R135). -/
theorem putEach_spec {w : Nat} (base p : Nat) (v : BitVec w) (n j : Nat) (o : Memory 8)
    (h : ∀ q, j ≤ q → q < j + n → (o.read ((8 * base + (p + q)) / 8)).isSome) :
    ∃ o', putEach base p v j n o = .done o' ∧ SameShape o o' ∧
      ∀ P, absBit o' P =
        if 8 * base + p + j ≤ P ∧ P < 8 * base + p + j + n
        then some (v.getLsbD (w - 1 - (P - (8 * base + p)))) else absBit o P := by
  induction n generalizing j o with
  | zero => exact ⟨o, rfl, SameShape.refl o, fun P => by rw [if_neg (by omega)]⟩
  | succ n ih =>
    have h0 := h j (le_refl j) (by omega)
    obtain ⟨b, hb⟩ := Option.isSome_iff_exists.1 h0
    have hs := sameShape_write o (setBit b (7 - (8 * base + (p + j)) % 8) (v.getLsbD (w - 1 - j))) h0
    obtain ⟨o', he, hs', hbits⟩ := ih (j + 1)
      (o.write ((8 * base + (p + j)) / 8) (setBit b (7 - (8 * base + (p + j)) % 8) (v.getLsbD (w - 1 - j)))) (by
        intro q h1 h2; rw [hs.some_iff]; exact h q (by omega) (by omega))
    refine ⟨o', ?_, hs.trans hs', fun P => ?_⟩
    · simp only [putEach, bitLoc_eq, hb, he]
    · rw [hbits, absBit_write o _ hb]
      by_cases h1 : P = 8 * base + (p + j)
      · subst h1
        rw [if_neg (by omega), if_pos rfl, if_pos (by omega)]
        congr 3; omega
      · rw [if_neg h1]
        by_cases h2 : 8 * base + p + (j + 1) ≤ P ∧ P < 8 * base + p + (j + 1) + n
        · rw [if_pos h2, if_pos (by omega)]
        · rw [if_neg h2, if_neg (by omega)]

/-- What PUTBITS does inside the buffer (42_pack.md R135). -/
theorem putBits_spec {w : Nat} (olen base p : Nat) (v : BitVec w) (o : Memory 8) (hw : 0 < w)
    (hin : 8 * base + p + w ≤ 8 * olen) (h : ∀ a, base ≤ a → a < olen → (o.read a).isSome) :
    ∃ o', putBits olen base p v o = .done o' ∧ SameShape o o' ∧
      ∀ P, absBit o' P =
        if 8 * base + p ≤ P ∧ P < 8 * base + p + w
        then some (v.getLsbD (w - 1 - (P - (8 * base + p)))) else absBit o P := by
  obtain ⟨o', he, hs, hb⟩ := putEach_spec base p v w 0 o (by
    intro q _ hq; exact h _ (by omega) (by omega))
  refine ⟨o', ?_, hs, fun P => by simpa using hb P⟩
  unfold putBits lastByte
  rw [if_neg (by omega), he]

/-- PUTBITS raises F_BITWRITE exactly when the field would pass the end of the buffer (42_pack.md R136). -/
theorem putBits_raised {w : Nat} (olen base p : Nat) (v : BitVec w) (o : Memory 8) (c : FaultCode)
    (h : putBits olen base p v o = .raised c) : c = .bitwrite ∧ olen ≤ base + (p + w - 1) / 8 := by
  have hp : ∀ n j o, putEach base p v j n o ≠ .raised c := by
    intro n
    induction n with
    | zero => intro j o; simp [putEach]
    | succ n ih =>
      intro j o
      simp only [putEach]
      split
      · simp
      · exact ih _ _
  unfold putBits lastByte at h
  split at h
  · rename_i h1; exact ⟨by simpa using h.symm, h1⟩
  · exact absurd h (hp _ _ _)

/-- A region that fits the buffer raises nothing (42_pack.md R141, R148). -/
theorem packRegion_not_raised {w : Nat} (stop : Nat → Fault) (codes : Memory w) (olen base : Nat) (hw : 0 < w)
    (n k : Nat) (o : Memory 8) (c : FaultCode) (hin : 8 * base + w * (k + n) ≤ 8 * olen) :
    packRegion stop codes olen base k n o ≠ .raised c := by
  induction n generalizing k o with
  | zero => simp [packRegion]
  | succ n ih =>
    have hk : w * (k + (n + 1)) = w * k + w + w * n := by ring
    have hk1 : w * (k + 1 + n) = w * k + w + w * n := by ring
    simp only [packRegion]
    split
    · simp
    · rename_i v _
      cases hp : putBits olen base (w * k) v o with
      | done o' => simp only [Packed.andThen]; exact ih (k + 1) o' (by omega)
      | raised c' =>
        have := (putBits_raised olen base (w * k) v o c' hp).2
        omega
      | stopped f => simp [Packed.andThen]

/-- What packing a region does where its codes and its bytes have values (42_pack.md R138, R139): code `i` lands at
region bits `w * i` to `w * i + w - 1`, most significant bit first (20_memory.md R59), and no other bit changes. -/
theorem packRegion_spec {w : Nat} (stop : Nat → Fault) (codes : Memory w) (olen base : Nat) (f : Nat → BitVec w)
    (hw : 0 < w) (n k : Nat) (o : Memory 8) (hin : 8 * base + w * (k + n) ≤ 8 * olen)
    (hc : ∀ i, k ≤ i → i < k + n → codes.read i = some (f i))
    (ho : ∀ a, base ≤ a → a < olen → (o.read a).isSome) :
    ∃ o', packRegion stop codes olen base k n o = .done o' ∧ SameShape o o' ∧
      ∀ P, absBit o' P =
        if 8 * base + w * k ≤ P ∧ P < 8 * base + w * (k + n)
        then some ((f ((P - 8 * base) / w)).getLsbD (w - 1 - (P - 8 * base) % w)) else absBit o P := by
  induction n generalizing k o with
  | zero => exact ⟨o, rfl, SameShape.refl o, fun P => by rw [if_neg (by simp only [Nat.add_zero]; omega)]⟩
  | succ n ih =>
    have hk : w * (k + (n + 1)) = w * k + w + w * n := by ring
    have hk1 : w * (k + 1 + n) = w * k + w + w * n := by ring
    have hk2 : w * (k + 1) = w * k + w := by ring
    obtain ⟨o1, he1, hs1, hb1⟩ := putBits_spec olen base (w * k) (f k) o hw (by omega) ho
    obtain ⟨o2, he2, hs2, hb2⟩ := ih (k + 1) o1 (by omega) (fun i h1 h2 => hc i (by omega) (by omega))
      (fun a h1 h2 => by rw [hs1.some_iff]; exact ho a h1 h2)
    refine ⟨o2, ?_, hs1.trans hs2, fun P => ?_⟩
    · simp only [packRegion, hc k (le_refl k) (by omega), he1, Packed.andThen, he2]
    · rw [hb2, hb1]
      by_cases h1 : 8 * base + w * (k + 1) ≤ P ∧ P < 8 * base + w * (k + 1 + n)
      · rw [if_pos h1, if_pos (by omega)]
      · rw [if_neg h1]
        by_cases h2 : 8 * base + w * k ≤ P ∧ P < 8 * base + w * k + w
        · rw [if_pos h2, if_pos (by omega)]
          have hq : (P - 8 * base) / w = k := by
            rw [Nat.div_eq_iff hw]
            have : k * w = w * k := Nat.mul_comm _ _
            omega
          have hr : (P - 8 * base) % w = P - (8 * base + w * k) := by
            have := Nat.div_add_mod (P - 8 * base) w
            rw [hq] at this; omega
          rw [hq, hr]
        · rw [if_neg h2, if_neg (by omega)]

/-- `R1` bytes hold `ncnt` codes of 3 bits (42_pack.md R131). -/
theorem normalBytes_bounds (n : Nat) : 3 * n ≤ 8 * normalBytes n ∧ 8 * normalBytes n ≤ 3 * n + 7 := by
  unfold normalBytes ceilDiv; omega

/-- `R2` bytes hold `xcnt` codes of 5 bits (42_pack.md R131). -/
theorem exceptionalBytes_bounds (n : Nat) : 5 * n ≤ 8 * exceptionalBytes n ∧ 8 * exceptionalBytes n ≤ 5 * n + 7 := by
  unfold exceptionalBytes ceilDiv; omega

/-- The header's four bytes, and that it changes no other (42_pack.md R132, R141). -/
theorem headerBytes_read (sel : CntSel) (alg : Byte) (count : BitVec 64) (o : Memory 8) (a : Nat) :
    (headerBytes sel alg count o).read a =
      if a = 0 then some alg else if a = 1 then some (countField sel count).1
      else if a = 2 then some (countField sel count).2.1 else if a = 3 then some (countField sel count).2.2
      else o.read a := by
  unfold headerBytes
  simp only [Memory.read_write]
  rcases a with _ | _ | _ | _ | a <;> simp

theorem headerBytes_wf (sel : CntSel) (alg : Byte) (count : BitVec 64) {o : Memory 8} (h : o.wf = true) :
    (headerBytes sel alg count o).wf = true :=
  Memory.wf_write _ _ _ (Memory.wf_write _ _ _ (Memory.wf_write _ _ _ (Memory.wf_write _ _ _ h)))

theorem headerBytes_below (sel : CntSel) (alg : Byte) (count : BitVec 64) {o : Memory 8} {cap : Nat}
    (h : o.below cap = true) (hc : 4 ≤ cap) : (headerBytes sel alg count o).below cap = true :=
  Memory.below_write _ _ (Memory.below_write _ _ (Memory.below_write _ _ (Memory.below_write _ _ h
    (by omega)) (by omega)) (by omega)) (by omega)

/-- PACK raises only F_RESOURCE, and only for want of room (42_pack.md R140, R148). -/
theorem pack_raised (s : State) (c : FaultCode) (h : pack s = .raised c) :
    c = .resource ∧ s.cfg.ocap < bufferBytes s.ncnt s.xcnt := by
  have hn := normalBytes_bounds s.ncnt
  have hx := exceptionalBytes_bounds s.xcnt
  unfold pack at h
  split at h
  · rename_i h1; exact ⟨by simpa using h.symm, h1⟩
  · cases hp : packN s (bufferBytes s.ncnt s.xcnt)
        (headerBytes s.cfg.cntSel s.alg s.count (s.obuf.fill 0#8 (bufferBytes s.ncnt s.xcnt))) with
    | done o =>
      rw [hp] at h
      exact absurd h (packRegion_not_raised _ _ _ _ (by omega) _ _ _ _ (by unfold bufferBytes; omega))
    | raised c' =>
      exact absurd hp (packRegion_not_raised _ _ _ _ (by omega) _ _ _ _ (by unfold bufferBytes; omega))
    | stopped f => rw [hp] at h; simp [Packed.andThen] at h

/-- What PACK does where the buffer fits and the codes have values (42_pack.md R140): the contents of `OBUF` by absolute
bit. Header bits are those of `headerBytes`; a region bit past the last code is 0 (20_memory.md R63). -/
theorem pack_spec (s : State) (f : Nat → NCode) (g : Nat → XCode)
    (hfit : bufferBytes s.ncnt s.xcnt ≤ s.cfg.ocap)
    (hn : ∀ i, i < s.ncnt → s.nmem.read i = some (f i)) (hx : ∀ i, i < s.xcnt → s.xmem.read i = some (g i)) :
    ∃ o, pack s = .done o ∧
      SameShape (headerBytes s.cfg.cntSel s.alg s.count (s.obuf.fill 0#8 (bufferBytes s.ncnt s.xcnt))) o ∧
      ∀ P, absBit o P =
        if 32 ≤ P ∧ P < 32 + 3 * s.ncnt then some ((f ((P - 32) / 3)).getLsbD (2 - (P - 32) % 3))
        else if 8 * (4 + normalBytes s.ncnt) ≤ P ∧ P < 8 * (4 + normalBytes s.ncnt) + 5 * s.xcnt then
          some ((g ((P - 8 * (4 + normalBytes s.ncnt)) / 5)).getLsbD (4 - (P - 8 * (4 + normalBytes s.ncnt)) % 5))
        else absBit (headerBytes s.cfg.cntSel s.alg s.count (s.obuf.fill 0#8 (bufferBytes s.ncnt s.xcnt))) P := by
  have bn := normalBytes_bounds s.ncnt
  have bx := exceptionalBytes_bounds s.xcnt
  have hsome : ∀ a, a < bufferBytes s.ncnt s.xcnt →
      ((headerBytes s.cfg.cntSel s.alg s.count (s.obuf.fill 0#8 (bufferBytes s.ncnt s.xcnt))).read a).isSome := by
    intro a ha
    rw [headerBytes_read, Memory.read_fill, if_pos ha]
    repeat' split
    all_goals rfl
  obtain ⟨o1, e1, s1, b1⟩ := packRegion_spec Fault.nmemUnwritten s.nmem (bufferBytes s.ncnt s.xcnt) 4 f (by omega)
    s.ncnt 0 _ (by unfold bufferBytes; omega) (fun i _ h2 => hn i (by omega)) (fun a _ h2 => hsome a h2)
  obtain ⟨o2, e2, s2, b2⟩ := packRegion_spec Fault.xmemUnwritten s.xmem (bufferBytes s.ncnt s.xcnt)
    (4 + normalBytes s.ncnt) g (by omega) s.xcnt 0 o1 (by unfold bufferBytes; omega)
    (fun i _ h2 => hx i (by omega)) (fun a _ h2 => by rw [s1.some_iff]; exact hsome a h2)
  refine ⟨o2, ?_, s1.trans s2, fun P => ?_⟩
  · unfold pack
    rw [if_neg (by omega), packN, e1, Packed.andThen, packX, e2]
  · rw [b2, b1]
    simp only [Nat.zero_add, Nat.mul_zero, Nat.add_zero, show 8 * 4 = 32 by rfl, show 3 - 1 = 2 by rfl, show 5 - 1 = 4 by rfl]
    by_cases h1 : 32 ≤ P ∧ P < 32 + 3 * s.ncnt
    · have h2 : ¬(8 * (4 + normalBytes s.ncnt) ≤ P ∧ P < 8 * (4 + normalBytes s.ncnt) + 5 * s.xcnt) := by omega
      simp only [if_neg h2, if_pos h1]
    · simp only [if_neg h1]

/-- The bit loop of PUTBITS changes no byte outside its field (42_pack.md R135). -/
theorem putEach_frame {w : Nat} (base p : Nat) (v : BitVec w) (n j : Nat) {o o' : Memory 8} {a : Nat}
    (h : putEach base p v j n o = .done o') (ha : ∀ q, j ≤ q → q < j + n → a ≠ base + (p + q) / 8) :
    o'.read a = o.read a := by
  induction n generalizing j o with
  | zero => cases h; rfl
  | succ n ih =>
    simp only [putEach] at h
    split at h
    · cases h
    · rw [ih (j + 1) h (fun q h1 h2 => ha q (by omega) (by omega))]
      exact Memory.read_write_other _ _ (ha j (Nat.le_refl j) (by omega))

/-- PUTBITS changes no byte outside its field, whose last byte is `lastByte` (42_pack.md R135, R141). -/
theorem putBits_frame {w : Nat} (olen base p : Nat) (v : BitVec w) {o o' : Memory 8} {a : Nat}
    (h : putBits olen base p v o = .done o') (ha : a < base + p / 8 ∨ lastByte base p w < a) : o'.read a = o.read a := by
  unfold putBits at h
  split at h
  · cases h
  · refine putEach_frame base p v w 0 h (fun q _ hq => ?_)
    unfold lastByte at ha
    have h1 : p / 8 ≤ (p + q) / 8 := Nat.div_le_div_right (by omega)
    have h2 : (p + q) / 8 ≤ (p + w - 1) / 8 := Nat.div_le_div_right (by omega)
    omega

/-- A region that was packed had a value for every code. -/
theorem packRegion_done {w : Nat} (stop : Nat → Fault) (codes : Memory w) (olen base : Nat) (n k : Nat)
    (o o' : Memory 8) (h : packRegion stop codes olen base k n o = .done o') :
    ∀ i, k ≤ i → i < k + n → (codes.read i).isSome := by
  induction n generalizing k o with
  | zero => intro i h1 h2; omega
  | succ n ih =>
    simp only [packRegion] at h
    split at h
    · cases h
    · rename_i v hv
      cases hp : putBits olen base (w * k) v o with
      | done o1 =>
        rw [hp] at h
        intro i h1 h2
        by_cases hi : i = k
        · subst hi; rw [hv]; rfl
        · exact ih (k + 1) o1 h i (by omega) (by omega)
      | raised c => rw [hp] at h; cases h
      | stopped f => rw [hp] at h; cases h

/-- Where PACK is done the buffer fitted and every code below the counters had a value. -/
theorem pack_done (s : State) (o : Memory 8) (h : pack s = .done o) :
    bufferBytes s.ncnt s.xcnt ≤ s.cfg.ocap ∧ (∀ i, i < s.ncnt → (s.nmem.read i).isSome) ∧
      (∀ i, i < s.xcnt → (s.xmem.read i).isSome) := by
  unfold pack at h
  split at h
  · cases h
  · rename_i hc
    cases hn : packN s (bufferBytes s.ncnt s.xcnt)
        (headerBytes s.cfg.cntSel s.alg s.count (s.obuf.fill 0#8 (bufferBytes s.ncnt s.xcnt))) with
    | done o1 =>
      rw [hn] at h
      exact ⟨by omega, fun i hi => packRegion_done _ _ _ _ _ _ _ _ hn i (by omega) (by omega),
        fun i hi => packRegion_done _ _ _ _ _ _ _ _ h i (by omega) (by omega)⟩
    | raised c => rw [hn] at h; cases h
    | stopped f => rw [hn] at h; cases h

end Sys2Proof.Machine
end

