-- ==== Sys2Proof/Laws/Scan.lean ====
section
/-! SUPPORT. What SCAN and its emissions can do (41_symbol.md). -/

namespace Sys2Proof.Machine

/-- The positions of the set bits among the `n` positions from `b`. -/
def positionsFrom (d : Word) (b n : Nat) : List Nat :=
  (List.range' b n).filterMap (fun p => if d.getLsbD (p - 1) then some p else none)

theorem positionsFrom_succ (d : Word) (b n : Nat) :
    positionsFrom d b (n + 1) =
      if d.getLsbD (b - 1) then b :: positionsFrom d (b + 1) n else positionsFrom d (b + 1) n := by
  unfold positionsFrom
  rw [List.range'_succ, List.filterMap_cons]
  by_cases h : d.getLsbD (b - 1) <;> simp [h]

theorem positionsFrom_mem {d : Word} {b n p : Nat} (h : p ∈ positionsFrom d b n) : b ≤ p ∧ p < b + n := by
  unfold positionsFrom at h
  rw [List.mem_filterMap] at h
  obtain ⟨q, hq, hp⟩ := h
  rw [List.mem_range'_1] at hq
  split at hp
  · simp only [Option.some.injEq] at hp; omega
  · exact absurd hp (by simp)

theorem setBits_eq_positionsFrom (d : Word) : setBits d = positionsFrom d 1 32 := by
  unfold setBits positionsFrom
  rw [List.range_eq_range', ← List.map_add_range' (a := 1) (s := 0) (n := 32)]
  simp [List.filterMap_map, Nat.add_comm]

/-- The loop of SCAN in closed form: what `n` iterations append to the lists (41_symbol.md R110, R111, R112). -/
theorem visits_spec (n : Nat) (c : Scan) :
    (Scan.visits n c).d = c.d ∧ (Scan.visits n c).bit = c.bit + n ∧ (Scan.visits n c).ended = c.ended ∧
    (Scan.visits n c).ns =
      c.ns ++ (gapsFrom c.lastBit (positionsFrom c.d c.bit n)).map (fun g => if g < 7 then normalOf g else escCode) ∧
    (Scan.visits n c).xs =
      c.xs ++ ((gapsFrom c.lastBit (positionsFrom c.d c.bit n)).filter (fun g => decide (7 ≤ g))).map exceptionalOf := by
  induction n generalizing c with
  | zero => simp [Scan.visits, positionsFrom, gapsFrom]
  | succ n ih =>
    simp only [Scan.visits]
    obtain ⟨h1, h2, h3, h4, h5⟩ := ih c.visit
    rw [h1, h2, h3, h4, h5, positionsFrom_succ]
    by_cases hb : c.d.getLsbD (c.bit - 1)
    · by_cases hg : c.bit - c.lastBit < 7
      · have hg' : ¬ 7 ≤ c.bit - c.lastBit := by omega
        simp [Scan.visit, Scan.here, Scan.gap, gapOf, Scan.emitGap, Scan.advance, hb, hg, hg', gapsFrom]
        omega
      · have hg' : 7 ≤ c.bit - c.lastBit := by omega
        simp [Scan.visit, Scan.here, Scan.gap, gapOf, Scan.emitEsc, Scan.advance, hb, hg, hg', gapsFrom]
        omega
    · simp [Scan.visit, Scan.here, Scan.advance, hb]
      omega

/-- The gaps of positions that rise strictly above `last` are at least 1 and at most the bound on the positions. -/
theorem gapsFrom_bounds {last hi : Nat} {ps : List Nat} (hs : ps.Pairwise (· < ·))
    (hl : ∀ p ∈ ps, last < p) (hh : ∀ p ∈ ps, p ≤ hi) : ∀ g ∈ gapsFrom last ps, 1 ≤ g ∧ g ≤ hi - last := by
  induction ps generalizing last with
  | nil => simp [gapsFrom]
  | cons p ps ih =>
    simp only [List.pairwise_cons] at hs
    intro g hg
    simp only [gapsFrom, List.mem_cons] at hg
    have h1 := hl p (by simp)
    have h2 := hh p (by simp)
    rcases hg with rfl | hg
    · omega
    · have := ih hs.2 (fun q hq => hs.1 q hq) (fun q hq => hh q (by simp [hq])) g hg
      omega

/-- The gaps add up to the last position. -/
theorem gapsFrom_sum {last hi : Nat} {ps : List Nat} (hs : ps.Pairwise (· < ·))
    (hl : ∀ p ∈ ps, last < p) (hh : ∀ p ∈ ps, p ≤ hi) (hi' : last ≤ hi) : last + (gapsFrom last ps).sum ≤ hi := by
  induction ps generalizing last with
  | nil => simpa [gapsFrom] using hi'
  | cons p ps ih =>
    simp only [List.pairwise_cons] at hs
    have h1 := hl p (by simp)
    have h2 := hh p (by simp)
    have := ih hs.2 (fun q hq => hs.1 q hq) (fun q hq => hh q (by simp [hq])) h2
    simp only [gapsFrom, List.sum_cons]; omega

theorem gapsFrom_length (last : Nat) (ps : List Nat) : (gapsFrom last ps).length = ps.length := by
  induction ps generalizing last with
  | nil => rfl
  | cons p ps ih => simp [gapsFrom, ih]

theorem setBits_sorted (d : Word) : (setBits d).Pairwise (· < ·) := by
  rw [setBits_eq_positionsFrom]
  unfold positionsFrom
  refine List.Pairwise.filterMap _ ?_ (List.pairwise_lt_range' (s := 1) (n := 32) (step := 1))
  intro a b hab x hx y hy
  split at hx <;> split at hy <;> simp_all

theorem setBits_mem {d : Word} {p : Nat} (h : p ∈ setBits d) : 1 ≤ p ∧ p ≤ 32 := by
  rw [setBits_eq_positionsFrom] at h
  have := positionsFrom_mem h; omega

/-- An emission is possible where the scan stands at a set bit: no position is skipped. -/
theorem seek_of_here {c : Scan} (h : c.here = true) : c.seek = c := by
  simp [Scan.seek, Scan.skip, h]

/-- Past position 32 nothing is skipped. -/
theorem seek_of_past {c : Scan} (h : 32 < c.bit) : c.seek = c := by
  have : ¬ c.bit ≤ 32 := by omega
  simp [Scan.seek, Scan.skip, this]

/-- A skipped position changes `bit` only. -/
theorem skip_eq (n : Nat) (c : Scan) : Scan.skip n c = { c with bit := (Scan.skip n c).bit } := by
  induction n generalizing c with
  | zero => rfl
  | succ n ih =>
    simp only [Scan.skip]
    split
    · rw [ih]; simp [Scan.advance]
    · rfl

end Sys2Proof.Machine
end

