-- ==== Sys2Proof/Laws/Exec.lean ====
section
/-! SUPPORT. Everything each command can do, said once (44_commands.md): later proofs cite these and unfold no meaning. -/

namespace Sys2Proof.Machine

/-- Every outcome of START (44_commands.md R176, 60_exceptions.md R204, R208). -/
theorem execStart_cases (a : Byte) (s : State) :
    (s.phase = .fault ∧ execStart a s = .next s) ∨
    (s.phase = .idle ∧ execStart a s = .next (openTransaction a s)) ∨
    (s.phase ≠ .fault ∧ s.phase ≠ .idle ∧ execStart a s = .next (raiseFault .proto s)) := by
  rcases inPhase_cases .idle s (.next (openTransaction a s)) with h | ⟨_, h2, h3⟩ | h
  · exact .inl h
  · exact .inr (.inl ⟨h2, h3⟩)
  · exact .inr (.inr h)

/-- Every outcome of PUSH (44_commands.md R178, 60_exceptions.md R202, R204, R208). -/
theorem execPush_cases (w : Word) (s : State) :
    (s.phase = .fault ∧ execPush w s = .next s) ∨
    (s.phase = .load ∧ codesFit s (scan (delta s.prev w)) = true ∧
      execPush w s = .next (appendWord w (scan (delta s.prev w)) s)) ∨
    (s.phase = .load ∧ codesFit s (scan (delta s.prev w)) = false ∧
      execPush w s = .next (raiseFault .resource s)) ∨
    (s.phase ≠ .fault ∧ s.phase ≠ .load ∧ execPush w s = .next (raiseFault .proto s)) := by
  rcases inPhase_cases .load s (.next (pushWord w s)) with h | ⟨_, h2, h3⟩ | h
  · exact .inl h
  · by_cases hc : codesFit s (scan (delta s.prev w)) = true
    · exact .inr (.inl ⟨h2, hc, by rw [execPush, h3, pushWord, if_pos hc]⟩)
    · exact .inr (.inr (.inl ⟨h2, by simpa using hc, by rw [execPush, h3, pushWord, if_neg hc]⟩))
  · exact .inr (.inr (.inr h))

/-- Every outcome of FINISH (44_commands.md R180, 42_pack.md R140, 60_exceptions.md R202, R204, R208). -/
theorem execFinish_cases (s : State) :
    (s.phase = .fault ∧ execFinish s = .next s) ∨
    (s.phase = .load ∧ ∃ o, pack s = .done o ∧
      execFinish s = .next { s with olen := bufferBytes s.ncnt s.xcnt, obuf := o, rp := 0, phase := .drain }) ∨
    (s.phase = .load ∧ s.cfg.ocap < bufferBytes s.ncnt s.xcnt ∧ execFinish s = .next (raiseFault .resource s)) ∨
    (s.phase = .load ∧ ∃ f, pack s = .stopped f ∧ execFinish s = .fault f) ∨
    (s.phase ≠ .fault ∧ s.phase ≠ .load ∧ execFinish s = .next (raiseFault .proto s)) := by
  rcases inPhase_cases .load s (buildBuffer s) with h | ⟨_, h2, h3⟩ | h
  · exact .inl h
  · cases hp : pack s with
    | done o => exact .inr (.inl ⟨h2, o, rfl, by rw [execFinish, h3, buildBuffer, hp]⟩)
    | raised c =>
      obtain ⟨rfl, hc⟩ := pack_raised s c hp
      exact .inr (.inr (.inl ⟨h2, hc, by rw [execFinish, h3, buildBuffer, hp]⟩))
    | stopped f => exact .inr (.inr (.inr (.inl ⟨h2, f, rfl, by rw [execFinish, h3, buildBuffer, hp]⟩)))
  · exact .inr (.inr (.inr (.inr h)))

/-- A buffer that does not fit raises F_RESOURCE (60_exceptions.md R202 (c)). -/
theorem execFinish_overflow {s : State} (h : s.phase = .load) (hc : s.cfg.ocap < bufferBytes s.ncnt s.xcnt) :
    execFinish s = .next (raiseFault .resource s) := by
  have hp : pack s = .raised .resource := by unfold pack; rw [if_pos hc]
  rw [execFinish, inPhase_legal _ h (by decide), buildBuffer, hp]

/-- FINISH where PACK is done (44_commands.md R180). -/
theorem execFinish_done {s : State} {o : Memory 8} (h : s.phase = .load) (hp : pack s = .done o) :
    execFinish s = .next { s with olen := bufferBytes s.ncnt s.xcnt, obuf := o, rp := 0, phase := .drain } := by
  rw [execFinish, inPhase_legal _ h (by decide), buildBuffer, hp]

/-- Every outcome of POP (44_commands.md R182). -/
theorem execPop_cases (s : State) :
    (s.phase ≠ .drain ∧ execPop s = .next s) ∨
    (s.phase = .drain ∧ ∃ b, s.obuf.read s.rp = some b ∧ execPop s = .next (deliver b s)) ∨
    (s.phase = .drain ∧ s.obuf.read s.rp = none ∧ execPop s = .fault (.obufUnwritten s.rp)) := by
  unfold execPop outValid
  by_cases h : s.phase = .drain
  · cases hr : s.obuf.read s.rp with
    | none => exact .inr (.inr ⟨h, rfl, by simp [h]⟩)
    | some b => exact .inr (.inl ⟨h, b, rfl, by simp [h]⟩)
  · exact .inl ⟨h, by simp [h]⟩

/-- What a PUSH that fits does to the state, field by field (44_commands.md R178). -/
theorem appendWord_eq (w : Word) (codes : List NCode × List XCode) (s : State) :
    appendWord w codes s =
      { s with
        nmem := (nAppends s codes.1).nmem, ncnt := s.ncnt + codes.1.length
        xmem := (xAppends s codes.2).xmem, xcnt := s.xcnt + codes.2.length
        prev := w, count := s.count + 1, scan := none } := by
  have hx : ∀ t : State, t.xmem = s.xmem → t.xcnt = s.xcnt → ∀ xs, (xAppends t xs).xmem = (xAppends s xs).xmem := by
    intro t h1 h2 xs
    induction xs generalizing s t with
    | nil => exact h1
    | cons v xs ih => exact ih (xAppend s v) (xAppend t v) (by simp [h1, h2]) (by simp [h2])
  unfold appendWord
  rw [xAppends_eq, nAppends_eq]
  simp only
  rw [hx { s with nmem := (nAppends s codes.1).nmem, ncnt := s.ncnt + codes.1.length } rfl rfl]

/-- The capacity test of PUSH (60_exceptions.md R202 (a), (b)). -/
theorem codesFit_iff (s : State) (codes : List NCode × List XCode) :
    codesFit s codes = true ↔
      s.ncnt + codes.1.length ≤ s.cfg.ncap ∧ s.xcnt + codes.2.length ≤ s.cfg.xcap := by
  simp [codesFit]

/-- Everything an operation that gives a next state can have done. -/
inductive Did (i : Instr) (s t : State) : Prop
  /-- A command discarded in `FAULT` (60_exceptions.md R208), or a POP outside `DRAIN` (log entry 7). -/
  | nothing (hp : (s.phase = .fault ∧ (∃ a, i = .start a)) ∨ (s.phase = .fault ∧ (∃ w, i = .push w)) ∨
      (s.phase = .fault ∧ i = .finish) ∨ (s.phase ≠ .drain ∧ i = .pop)) (h : t = s)
  /-- 44_commands.md R176. -/
  | opened (a : Byte) (hi : i = .start a) (hp : s.phase = .idle) (h : t = openTransaction a s)
  /-- 44_commands.md R178. -/
  | pushed (w : Word) (hi : i = .push w) (hp : s.phase = .load) (hc : codesFit s (scan (delta s.prev w)) = true)
      (h : t = appendWord w (scan (delta s.prev w)) s)
  /-- 44_commands.md R180. -/
  | built (o : Memory 8) (hi : i = .finish) (hp : s.phase = .load) (hk : pack s = .done o)
      (h : t = { s with olen := bufferBytes s.ncnt s.xcnt, obuf := o, rp := 0, phase := .drain })
  /-- 44_commands.md R184. -/
  | cleared (hi : i = .clear) (h : t = leaveFault s)
  /-- 44_commands.md R182. -/
  | delivered (b : Byte) (hi : i = .pop) (hp : s.phase = .drain) (hb : s.obuf.read s.rp = some b) (h : t = deliver b s)
  /-- 60_exceptions.md R202. -/
  | lacked (hp : s.phase = .load)
      (hc : (∃ w, i = .push w ∧ codesFit s (scan (delta s.prev w)) = false) ∨
        (i = .finish ∧ s.cfg.ocap < bufferBytes s.ncnt s.xcnt))
      (h : t = raiseFault .resource s)
  /-- 60_exceptions.md R204. -/
  | misplaced (hp : s.phase ≠ .fault)
      (hi : (s.phase ≠ .idle ∧ ∃ a, i = .start a) ∨ (s.phase ≠ .load ∧ ((∃ w, i = .push w) ∨ i = .finish)))
      (h : t = raiseFault .proto s)
  /-- 42_pack.md R132. -/
  | headed (a c0 c1 c2 : Byte) (hi : i = .header a c0 c1 c2)
      (h : t = { s with obuf := headerBytes s.cfg.cntSel s.alg s.count s.obuf })
  /-- 41_symbol.md R111 to R113. -/
  | emitted (f : Scan → Scan) (hi : Safety.emissionRow i = true) (h : t = onScan f s)

/-- Every way an operation can give a next state. -/
theorem exec_did {i : Instr} {s t : State} (h : exec i s = .next t) : Did i s t := by
  have inj : ∀ u : State, (Host.Outcome.next u : Out) = .next t → t = u := by intro u h; cases h; rfl
  cases i with
  | start a =>
    have h : execStart a s = .next t := h
    rcases execStart_cases a s with ⟨h1, h2⟩ | ⟨h1, h2⟩ | ⟨h0, h1, h2⟩ <;> rw [h2] at h
    · exact .nothing (.inl ⟨h1, a, rfl⟩) (inj _ h)
    · exact .opened a rfl h1 (inj _ h)
    · exact .misplaced h0 (.inl ⟨h1, a, rfl⟩) (inj _ h)
  | push w =>
    have h : execPush w s = .next t := h
    rcases execPush_cases w s with ⟨h1, h2⟩ | ⟨h0, h1, h2⟩ | ⟨h0, h1, h2⟩ | ⟨h0, h1, h2⟩ <;> rw [h2] at h
    · exact .nothing (.inr (.inl ⟨h1, w, rfl⟩)) (inj _ h)
    · exact .pushed w rfl h0 h1 (inj _ h)
    · exact .lacked h0 (.inl ⟨w, rfl, h1⟩) (inj _ h)
    · exact .misplaced h0 (.inr ⟨h1, .inl ⟨w, rfl⟩⟩) (inj _ h)
  | finish =>
    have h : execFinish s = .next t := h
    rcases execFinish_cases s with ⟨h1, h2⟩ | ⟨h0, o, h1, h2⟩ | ⟨h0, h1, h2⟩ | ⟨h0, f, h1, h2⟩ | ⟨h0, h1, h2⟩ <;>
      rw [h2] at h
    · exact .nothing (.inr (.inr (.inl ⟨h1, rfl⟩))) (inj _ h)
    · exact .built o rfl h0 h1 (inj _ h)
    · exact .lacked h0 (.inr ⟨rfl, h1⟩) (inj _ h)
    · cases h
    · exact .misplaced h0 (.inr ⟨h1, .inr rfl⟩) (inj _ h)
  | clear => exact .cleared rfl (inj _ h)
  | pop =>
    have h : execPop s = .next t := h
    rcases execPop_cases s with ⟨h1, h2⟩ | ⟨h0, b, h1, h2⟩ | ⟨h0, h1, h2⟩ <;> rw [h2] at h
    · exact .nothing (.inr (.inr (.inr ⟨h1, rfl⟩))) (inj _ h)
    · exact .delivered b rfl h0 h1 (inj _ h)
    · cases h
  | header a c0 c1 c2 => exact .headed a c0 c1 c2 rfl (inj _ h)
  | xcodeNever v => cases h
  | _ => exact .emitted _ rfl (inj _ h)

/-- Every way a step can give a next state: nothing offered, a reset, or an operation. -/
theorem step_did {s t : State} (h : step s = .next t) :
    (s.pending = [] ∧ t = idleStep s) ∨
    (∃ rest, s.pending = .reset :: rest ∧ t = resetRegisters (takeOffer rest s)) ∨
    (∃ f rest i, s.pending = .word f :: rest ∧ decode f = .ok i ∧ Did i (takeOffer rest s) t) := by
  unfold step at h
  split at h
  · rename_i hp; cases h; exact .inl ⟨hp, rfl⟩
  · rename_i rest hp; cases h; exact .inr (.inl ⟨rest, hp, rfl⟩)
  · rename_i f rest hp
    split at h
    · rename_i i hd; exact .inr (.inr ⟨f, rest, i, hp, hd, exec_did h⟩)
    · cases h

end Sys2Proof.Machine

namespace Sys2Proof.Safety

open Sys2Proof.Machine

/-- Operations in two parts. -/
theorem execAll_append (l₁ l₂ : List Instr) (s : State) :
    execAll (l₁ ++ l₂) s =
      match execAll l₁ s with
      | .next t => execAll l₂ t
      | .fault f => .fault f
      | .refused r => .refused r := by
  induction l₁ generalizing s with
  | nil => rfl
  | cons i l₁ ih =>
    simp only [List.cons_append, execAll]
    cases exec i s with
    | next t => exact ih t
    | fault f => rfl
    | refused r => rfl

/-- The first operation, where it gives a next state. -/
theorem execAll_cons_next {i : Instr} {s t : State} (l : List Instr) (h : exec i s = .next t) :
    execAll (i :: l) s = execAll l t := by
  simp only [execAll, h]

end Sys2Proof.Safety
end

