-- ==== Sys2Proof/Laws/Fields.lean ====
section
/-! SUPPORT. The fields of a word put together and taken apart again (30_encoding.md R81, R88), what decode does with a
word of each format, and the bits of a byte given bit by bit (42_pack.md R146). -/

namespace Sys2Proof

theorem cmdOp_cmdWord (op : BitVec 2) (data : BitVec 32) : cmdOp (cmdWord op data) = op := by
  apply BitVec.eq_of_getLsbD_eq
  intro i hi
  rw [cmdOp, BitVec.getLsbD_extractLsb', cmdWord, BitVec.getLsbD_append, if_neg (by omega)]
  simp [hi]

theorem cmdData_cmdWord (op : BitVec 2) (data : BitVec 32) : cmdData (cmdWord op data) = data := by
  apply BitVec.eq_of_getLsbD_eq
  intro i hi
  rw [cmdData, BitVec.getLsbD_extractLsb', cmdWord, BitVec.getLsbD_append, if_pos (by omega)]
  simp [hi]

theorem decode_ofCmd (w : CmdWord) : decode (.ofCmd w) = .ok (decodeCmd w) := by
  simp [decode, FWord.ofCmd]
  exact w.isLt

theorem decode_ofNsym (c : NCode) : decode (.ofNsym c) = .ok (decodeNsym c) := by
  simp [decode, FWord.ofNsym]
  exact c.isLt

theorem decode_ofXsym (v : XCode) : decode (.ofXsym v) = .ok (decodeXsym v) := by
  simp [decode, FWord.ofXsym]
  exact v.isLt

theorem decode_ofHdr (h : HdrWord) : decode (.ofHdr h) = .ok (decodeHdr h) := by
  simp [decode, FWord.ofHdr]
  exact h.isLt

/-- Bit `i` of a header word, from the byte it lies in (30_encoding.md R88). -/
theorem hdrWord_getLsbD (a c0 c1 c2 : Byte) (i : Nat) :
    (hdrWord a c0 c1 c2).getLsbD i =
      if i < 8 then c2.getLsbD i else if i < 16 then c1.getLsbD (i - 8) else if i < 24 then c0.getLsbD (i - 16)
      else a.getLsbD (i - 24) := by
  rw [hdrWord, BitVec.getLsbD_append, BitVec.getLsbD_append, BitVec.getLsbD_append]
  by_cases h1 : i < 8
  · rw [if_pos (by omega), if_pos (by omega), if_pos h1, if_pos h1]
  · by_cases h2 : i < 16
    · rw [if_pos (by omega), if_pos (by omega), if_neg h1, if_neg h1, if_pos h2]
    · by_cases h3 : i < 24
      · rw [if_pos (by omega), if_neg (by omega), if_neg h1, if_neg h2, if_pos h3]
      · rw [if_neg (by omega), if_neg h1, if_neg h2, if_neg h3]

theorem decodeHdr_hdrWord (a c0 c1 c2 : Byte) : decodeHdr (hdrWord a c0 c1 c2) = .header a c0 c1 c2 := by
  have h : ∀ (k : Nat) (b : Byte), (∀ i, i < 8 → (hdrWord a c0 c1 c2).getLsbD (k + i) = b.getLsbD i) →
      (hdrWord a c0 c1 c2).extractLsb' k 8 = b := by
    intro k b hb
    apply BitVec.eq_of_getLsbD_eq
    intro i hi
    rw [BitVec.getLsbD_extractLsb', hb i hi]
    simp [hi]
  rw [decodeHdr]
  rw [h 24 a, h 16 c0, h 8 c1, h 0 c2] <;> intro i hi <;> rw [hdrWord_getLsbD]
  · rw [if_pos (by omega), Nat.zero_add]
  · rw [if_neg (by omega), if_pos (by omega)]; congr 1; omega
  · rw [if_neg (by omega), if_neg (by omega), if_pos (by omega)]; congr 1; omega
  · rw [if_neg (by omega), if_neg (by omega), if_neg (by omega)]; congr 1; omega

/-- A header word is that of its own four bytes. -/
theorem hdrWord_fields (h : HdrWord) :
    hdrWord (h.extractLsb' 24 8) (h.extractLsb' 16 8) (h.extractLsb' 8 8) (h.extractLsb' 0 8) = h := by
  apply BitVec.eq_of_getLsbD_eq
  intro i hi
  rw [hdrWord_getLsbD]
  repeat' split
  all_goals rw [BitVec.getLsbD_extractLsb', decide_eq_true (by omega), Bool.true_and]; congr 1; omega

end Sys2Proof

namespace Sys2Proof.Machine

/-- Bit `7 - i` of a byte given by its bits, the most significant first (42_pack.md R146). -/
theorem byteOfBits_getLsbD (f : Nat → Bool) {i : Nat} (hi : i < 8) : (byteOfBits f).getLsbD (7 - i) = f i := by
  unfold byteOfBits
  interval_cases i
  all_goals
    repeat rw [BitVec.getLsbD_append]
    simp

end Sys2Proof.Machine
end

