-- ==== Sys2Proof/Laws/PerInstr.lean ====
section
/-! SUPPORT. The per-instruction family EncodeFits: the word of every well-formed instruction has a format of
30_encoding.md R80 and sets no bit above that format's width. -/

namespace Sys2Proof.Laws.EncodeFits

/-- The word of `i` lies within its format (30_encoding.md R80). -/
def Statement (i : Instr) : Prop :=
  WellFormed i → (encode i).fmt ≠ .unlisted ∧ (encode i).bits < 2 ^ (encode i).fmt.width

theorem start (a : Byte) : Statement (.start a) := fun _ => ⟨by simp [encode, FWord.ofCmd], BitVec.isLt _⟩

theorem push (w : Word) : Statement (.push w) := fun _ => ⟨by simp [encode, FWord.ofCmd], BitVec.isLt _⟩

theorem finish : Statement .finish := fun _ => ⟨by simp [encode, FWord.ofCmd], BitVec.isLt _⟩

theorem clear : Statement .clear := fun _ => ⟨by simp [encode, FWord.ofCmd], BitVec.isLt _⟩

theorem term : Statement .term := fun _ => ⟨by simp [encode, FWord.ofNsym], BitVec.isLt _⟩

theorem gap1 : Statement .gap1 := fun _ => ⟨by simp [encode, FWord.ofNsym], BitVec.isLt _⟩

theorem gap2 : Statement .gap2 := fun _ => ⟨by simp [encode, FWord.ofNsym], BitVec.isLt _⟩

theorem gap3 : Statement .gap3 := fun _ => ⟨by simp [encode, FWord.ofNsym], BitVec.isLt _⟩

theorem gap4 : Statement .gap4 := fun _ => ⟨by simp [encode, FWord.ofNsym], BitVec.isLt _⟩

theorem gap5 : Statement .gap5 := fun _ => ⟨by simp [encode, FWord.ofNsym], BitVec.isLt _⟩

theorem gap6 : Statement .gap6 := fun _ => ⟨by simp [encode, FWord.ofNsym], BitVec.isLt _⟩

theorem esc : Statement .esc := fun _ => ⟨by simp [encode, FWord.ofNsym], BitVec.isLt _⟩

theorem xcode (v : XCode) : Statement (.xcode v) := fun _ => ⟨by simp [encode, FWord.ofXsym], BitVec.isLt _⟩

theorem xcodeNever (v : XCode) : Statement (.xcodeNever v) := fun _ => ⟨by simp [encode, FWord.ofXsym], BitVec.isLt _⟩

theorem header (a c0 c1 c2 : Byte) : Statement (.header a c0 c1 c2) :=
  fun _ => ⟨by simp [encode, FWord.ofHdr], BitVec.isLt _⟩

theorem pop : Statement .pop := fun _ => ⟨by simp [encode], by simp [encode, Format.width]⟩

end Sys2Proof.Laws.EncodeFits
end

