-- ==== Sys2Proof/Tests/Slice0.lean ====
section
/-! SUPPORT. Tests: the refusals of WellFormed, decoding of words written out from the spec's encodings, one step of each
operation against the vectors of 95_test_vectors.md, and for each statement with hypotheses a witness that they can be
met. Expected values are the spec's. -/

namespace Sys2Proof.Tests

open Sys2Proof.Machine Sys2Proof.Safety

/-! ### WellFormed: an ill-formed term for each check -/

theorem test_wf_refuses_xcode_26 : ¬ WellFormed (.xcode 26) := by decide

theorem test_wf_refuses_xcode_never_25 : ¬ WellFormed (.xcodeNever 25) := by decide

theorem test_wf_takes_the_bounds : WellFormed (.xcode 25) ∧ WellFormed (.xcodeNever 26) := by decide

/-! ### Decode: 30_encoding.md R81 to R88, R94, bit by bit -/

/-- `{op = 00, data = 0xABCDEFFF}`: data bits 31:8 are ignored (95 T112). -/
theorem test_decode_start : decode ⟨.cmd, 0b00_10101011110011011110111111111111⟩ = .ok (.start 0xFF) := by decide

theorem test_decode_push : decode ⟨.cmd, 0b01_10000000000000000000000010000001⟩ = .ok (.push 0x80000081) := by decide

theorem test_decode_finish : decode ⟨.cmd, 0b10_00000000000000000000000000000000⟩ = .ok .finish := by decide

theorem test_decode_clear : decode ⟨.cmd, 0b11_00000000000000000000000000000000⟩ = .ok .clear := by decide

theorem test_decode_term : decode ⟨.nsym, 0b000⟩ = .ok .term := by decide

theorem test_decode_gap1 : decode ⟨.nsym, 0b001⟩ = .ok .gap1 := by decide

theorem test_decode_gap2 : decode ⟨.nsym, 0b010⟩ = .ok .gap2 := by decide

theorem test_decode_gap3 : decode ⟨.nsym, 0b011⟩ = .ok .gap3 := by decide

theorem test_decode_gap4 : decode ⟨.nsym, 0b100⟩ = .ok .gap4 := by decide

theorem test_decode_gap5 : decode ⟨.nsym, 0b101⟩ = .ok .gap5 := by decide

theorem test_decode_gap6 : decode ⟨.nsym, 0b110⟩ = .ok .gap6 := by decide

theorem test_decode_esc : decode ⟨.nsym, 0b111⟩ = .ok .esc := by decide

theorem test_decode_xcode : decode ⟨.xsym, 0b11001⟩ = .ok (.xcode 25) := by decide

theorem test_decode_xcode_never : decode ⟨.xsym, 0b11010⟩ = .ok (.xcodeNever 26) := by decide

theorem test_decode_header :
    decode ⟨.hdr, 0b00000001_11111111_00000010_10000000⟩ = .ok (.header 0x01 0xFF 0x02 0x80) := by decide

theorem test_decode_pop : decode ⟨.pop, 0⟩ = .ok .pop := by decide

/-- A number with a bit above its format is no word of it (30_encoding.md R80). -/
theorem test_decode_rejects :
    decode ⟨.cmd, 2 ^ 34⟩ = .error .strayBits ∧ decode ⟨.nsym, 8⟩ = .error .strayBits ∧
      decode ⟨.unlisted, 0⟩ = .error .noSuchFormat := by decide

theorem test_table_words :
    decodeTableWord 40 0x300000000 = some .clear ∧ decodeTableWord 8 0b111 = some .esc ∧
      decodeTableWord 8 0b11111 = some (.xcodeNever 31) ∧ decodeTableWord 32 0x07000000 = some (.header 7 0 0 0) ∧
      decodeTableWord 0 0 = some .pop := by decide

/-! ### Small states -/

/-- The state an operation leaves, where it goes on. -/
def next? : Out → Option State
  | .next t => some t
  | .fault _ => none
  | .refused _ => none

theorem next?_eq {o : Out} {t : State} (h : next? o = some t) : o = .next t := by
  cases o <;> simp_all [next?]

/-- `LOAD` with nothing pushed and algorithm identifier `a`. -/
def opened (c : Config) (a : Byte) : State := { State.reset with cfg := c, alg := a, phase := .load }

/-- 95 T113: `LOAD` after `PUSH 0x00000081`. -/
def pushed : State :=
  { opened Config.ref 0 with
    prev := 0x81, count := 1, ncnt := 3, xcnt := 1
    nmem := [(0, 1), (1, 7), (2, 0)], xmem := [(0, 0)] }

/-- 95 T129: `SMALLCFG`, `NMEM` exactly full. -/
def full : State :=
  { opened Config.small 0 with
    prev := 0x7F, count := 1, ncnt := 8
    nmem := [(0, 1), (1, 1), (2, 1), (3, 1), (4, 1), (5, 1), (6, 1), (7, 0)] }

/-- 95 T115: `DRAIN` after the `FINISH` of `pushed`, `k` bytes already taken. -/
def draining (k : Nat) : State :=
  { pushed with
    olen := 7, rp := k, phase := .drain
    obuf := [(0, 0), (1, 0), (2, 0), (3, 0), (4, 0x3C), (5, 0), (6, 0)] }

/-- `FAULT` with `F_RESOURCE`. -/
def faulted : State := { pushed with phase := .fault, fault := .resource }

/-- A scan of `d` that stands at position `bit` with the last set bit at `last`. -/
def scanning (d : Word) (bit last : Nat) : State := { pushed with scan := some ⟨d, bit, last, [], [], false⟩ }

/-- The two lists a scan has emitted. -/
def emitted (o : Out) : Option (List NCode × List XCode) := (next? o).bind (fun t => t.scan.map (fun c => (c.ns, c.xs)))

/-! ### One step of each operation -/

/-- 95 T111. -/
theorem test_start_resets :
    (next? (exec (.start 0x01)
      { State.reset with alg := 7, prev := 0xDEADBEEF, count := 2, ncnt := 26, olen := 14, rp := 14 })) =
      some (opened Config.ref 1) := by decide

/-- 95 T122. -/
theorem test_start_in_load :
    (next? (exec (.start 5) pushed)).map (fun t => (t.phase, t.fault)) = some (.fault, .proto) := by decide

/-- 95 T113. -/
theorem test_push_appends : next? (exec (.push 0x81) (opened Config.ref 0)) = some pushed := by decide +kernel

/-- 95 T127: one exceptional code too many. -/
theorem test_push_resource :
    (next? (exec (.push 0x00204081) { opened Config.small 0 with prev := 0x4081, count := 2, ncnt := 5, xcnt := 2 })).map
      (fun t => (t.phase, t.fault, t.ncnt)) = some (.fault, .resource, 5) := by decide +kernel

/-- 95 T115. -/
theorem test_finish_packs : next? (exec .finish pushed) = some (draining 0) := by decide +kernel

/-- 95 T130: `4 + 3 + 2` bytes do not fit 8. -/
theorem test_finish_resource :
    (next? (exec .finish { opened Config.small 0 with ncnt := 6, xcnt := 2 })).map (fun t => (t.phase, t.fault, t.olen)) =
      some (.fault, .resource, 0) := by decide +kernel

/-- 95 T125. -/
theorem test_clear_leaves_fault :
    (next? (exec .clear faulted)).map (fun t => (t.phase, t.fault, t.ncnt, t.prev)) = some (.idle, .none, 0, 0x81) := by
  decide

/-- 95 T119. -/
theorem test_clear_drops_buffer :
    (next? (exec .clear (draining 2))).map (fun t => (t.phase, outValid t, t.delivered)) = some (.idle, false, []) := by
  decide

/-- 95 T116. -/
theorem test_pop_first :
    (next? (exec .pop (draining 0))).map (fun t => (t.delivered, t.rp, t.phase)) =
      some ([⟨0, false⟩], 1, .drain) := by decide

/-- 95 T117. -/
theorem test_pop_last :
    (next? (exec .pop (draining 6))).map (fun t => (t.delivered, t.rp, t.phase, t.ncnt)) =
      some ([⟨0, true⟩], 7, .idle, 3) := by decide

/-- 41_symbol.md R118, the row 31, 32. -/
theorem test_gap1 : emitted (exec .gap1 (scanning 0xC0000000 32 31)) = some ([1], []) := by decide

/-- Position 2 after no set bit (95 T22). -/
theorem test_gap2 : emitted (exec .gap2 (scanning 0xAAAAAAAA 1 0)) = some ([2], []) := by decide

/-- From position 7 to position 10 of 0x12345678 (95 T32). -/
theorem test_gap3 : emitted (exec .gap3 (scanning 0x12345678 8 7)) = some ([3], []) := by decide

/-- The first set bit of 0x88888888 (95 T24). -/
theorem test_gap4 : emitted (exec .gap4 (scanning 0x88888888 1 0)) = some ([4], []) := by decide

/-- The first set bit of 0x02040810 (95 T28). -/
theorem test_gap5 : emitted (exec .gap5 (scanning 0x02040810 1 0)) = some ([5], []) := by decide

/-- 41_symbol.md R118, the row 26, 32: the largest gap that is not escaped. -/
theorem test_gap6 : emitted (exec .gap6 (scanning 0x82000000 32 26)) = some ([6], []) := by decide

/-- 41_symbol.md R118, the row 25, 32: the smallest gap that is escaped. -/
theorem test_esc_7 : emitted (exec .esc (scanning 0x81000000 32 25)) = some ([7], [0]) := by decide

/-- 41_symbol.md R118, the row 0, 32: the largest gap. -/
theorem test_xcode_25 : emitted (exec (.xcode 25) (scanning 0x80000000 1 0)) = some ([7], [25]) := by decide

/-- The gap is 32, so the escape with code 24 does not come up. -/
theorem test_xcode_24 : emitted (exec (.xcode 24) (scanning 0x80000000 1 0)) = some ([], []) := by decide

theorem test_term : emitted (exec .term (scanning 0 1 0)) = some ([0], []) := by decide

/-- A set bit is still to come, so the scan is not over (41_symbol.md R113). -/
theorem test_term_too_early : emitted (exec .term (scanning 0x80000000 1 0)) = some ([], []) := by decide

theorem test_xcode_never : exec (.xcodeNever 31) pushed = .refused (.neverEmitted 31) := rfl

/-- 95 T63: `alg = 0xFF`, `count = 258`, `LO`. -/
theorem test_header :
    (next? (exec (.header 0 0 0 0) { pushed with cfg := { Config.ref with cntSel := .lo }, alg := 0xFF, count := 258 })).map
      (fun t => t.obuf) = some [(0, 0xFF), (1, 0x02), (2, 0x01), (3, 0x00)] := by decide

/-- 95 T131. -/
theorem test_reset_event :
    next? (step { faulted with pending := [.reset] }) =
      some { State.reset with nmem := [(0, 1), (1, 7), (2, 0)], xmem := [(0, 0)], draw := 1 } := by decide

/-- A table word placed at reset is what the next step runs. -/
theorem test_with_fetch_word :
    (next? (step (State.reset.withFetchWord 34 0x000000001))).map (fun t => (t.phase, t.alg)) = some (.load, 1) := by
  decide

theorem test_with_fetch_word_code :
    emitted (step (State.reset.withFetchWord 5 0b11001)) = some ([7], [25]) := by decide

/-- 95 T67, T68: the count field of a large count. -/
theorem test_count_field :
    countField .hi 0x0001020304050607 = (0x02, 0x01, 0x00) ∧
      countField .lo 0x0001020304050607 = (0x07, 0x06, 0x05) := by decide

/-- 95 T73 and T79: a field across a byte boundary, and one past the buffer. -/
theorem test_put_bits :
    putBits 8 4 6 (5 : NCode) [(4, 0x00), (5, 0x00)] = .done [(4, 0x02), (5, 0x80)] ∧
      putBits 5 4 6 (7 : NCode) [(4, 0x00)] = .raised .bitwrite := by decide

/-- 95 T76: only the field's bits change, in the bit form and in the byte form. -/
theorem test_put_bits_keeps :
    putBits 8 4 3 (0 : NCode) [(4, 0xFF)] = .done [(4, 0xE3)] ∧ putBytes 4 3 (0 : NCode) [(4, 0xFF)] = .done [(4, 0xE3)] := by
  decide

/-- 95 T33. -/
theorem test_scan_deadbeef :
    scan 0xDEADBEEF = ([1,1,1,1,2,1,1,2,1,1,1,1,2,1,2,1,2,2,2,1,1,1,2,1,0], []) := by decide +kernel

/-- 95 T99's exceptional region: the codes 0, 7, 22, 0, 0, 8 in four bytes. -/
theorem test_region_bytes :
    regionBytes ([0, 7, 22, 0, 0, 8] : List XCode) = [0x01, 0xEC, 0x00, 0x20] := by decide +kernel

/-- 43_text.md R161 with 95, section 7. -/
theorem test_text : textOf [0xFB, 0xFF] = ['-', '_', '8', '='] := by decide

/-! ### Witnesses: the hypotheses of each statement can be met -/

theorem witness_DecodeOfEncode : WellFormed (.xcode 25) ∧ WellFormed (.xcodeNever 26) ∧ WellFormed (.push 0xFFFFFFFF) := by
  decide

theorem witness_EncodeOfDecode :
    decode ⟨.cmd, 2 ^ 34 - 1⟩ = .ok .clear ∧ decode ⟨.xsym, 31⟩ = .ok (.xcodeNever 31) ∧ Format.xsym ≠ .cmd := by decide

theorem witness_CommandOperands :
    (0x0FFFFFFFF#34).extractLsb' 32 2 = 0#2 ∧ (0x1FFFFFFFF#34).extractLsb' 32 2 = 1#2 ∧
      (0x2FFFFFFFF#34).extractLsb' 32 2 = 2#2 ∧ (0x3FFFFFFFF#34).extractLsb' 32 2 = 3#2 := by decide

theorem witness_IgnoredBitsDoNotMatter :
    (0xABCDEFFF#32).extractLsb' 0 8 = (0x000000FF#32).extractLsb' 0 8 := by decide

theorem witness_StepRunsDecoded :
    { State.reset with pending := [.word ⟨.cmd, 0x300000000⟩] }.pending = .word ⟨.cmd, 0x300000000⟩ :: [] ∧
      decode ⟨.cmd, 0x300000000⟩ = .ok .clear ∧ WellFormed .clear := by decide

theorem witness_StepWithoutInstruction :
    State.reset.pending = [] ∧ { State.reset with pending := [.word ⟨.cmd, 2 ^ 34⟩] }.pending = .word ⟨.cmd, 2 ^ 34⟩ :: [] ∧
      decode ⟨.cmd, 2 ^ 34⟩ = .error .strayBits ∧ decode ⟨.unlisted, 0⟩ = .error .noSuchFormat := by decide

/-- 95 T132, with START and with CLEAR. -/
theorem witness_OutputBeforeCommandAtOneEdge :
    (draining 6).phase = .drain ∧ (draining 6).pending = [] ∧ (draining 6).obuf.read (draining 6).rp = some 0 ∧
      (draining 6).rp + 1 = (draining 6).olen ∧ (Edge.mk false true 0 2 true).cmdOp = 0#2 ∧
      (Edge.mk false true 3 0 true).cmdOp = 3#2 ∧ (Edge.mk false true 3 0 true).rst = false ∧
      (Edge.mk false true 3 0 true).outReady = true ∧ (Edge.mk false true 3 0 true).cmdValid = true := by decide

theorem witness_ResetValues : State.reset.phase = .idle ∧ State.reset.fault = .none := by decide

theorem witness_ResetEvent :
    { faulted with pending := [.reset] }.pending = .reset :: [] ∧ (Edge.mk true true 1 5 true).rst = true := by decide

theorem witness_ResetAndClearLookAlike :
    exec .clear (draining 2) = .next (leaveFault (draining 2)) ∧
      ∀ i ∈ [Instr.start 1, .push 5, .finish, .pop, .clear], hostOperation i = true := ⟨rfl, by decide⟩

theorem witness_StartOpensTransaction :
    State.reset.phase = .idle ∧ pushed.phase = .load ∧ pushed.fault = .none ∧ (draining 0).phase = .drain ∧
      (draining 0).fault = .none := by decide

/-- Exactly full (95 T128), one normal code over, one exceptional code over (95 T127), and the other phases. -/
theorem witness_PushAppendsCodes :
    (scan ((opened Config.small 0).prev ^^^ 0x7F) = ([1, 1, 1, 1, 1, 1, 1, 0], []) ∧
      (opened Config.small 0).phase = .load ∧ (opened Config.small 0).ncnt + 8 = Config.small.ncap ∧
      (opened Config.small 0).xcnt + 0 ≤ Config.small.xcap) ∧
    (scan (full.prev ^^^ 0x7F) = ([0], []) ∧ full.cfg.ncap < full.ncnt + 1 ∧ full.phase = .load ∧ full.fault = .none) ∧
    (scan (0x4081 ^^^ 0x00204081 : Word) = ([7, 0], [15]) ∧ Config.small.xcap < 2 + 1) ∧
    State.reset.phase = .idle ∧ (draining 0).phase = .drain ∧ (draining 0).fault = .none := by decide +kernel

theorem witness_PushCounters :
    pushed.phase = .load ∧ ∃ t, exec (.push 0x81) pushed = .next t ∧ t.phase ≠ .fault :=
  ⟨rfl, _, rfl, by decide +kernel⟩

/-- One entry free. -/
theorem witness_ZeroDifferenceIsOneTerminator :
    { full with ncnt := 7 }.phase = .load ∧ { full with ncnt := 7 }.ncnt + 1 = full.cfg.ncap ∧
      { full with ncnt := 7 }.xcnt ≤ full.cfg.xcap := by decide

/-- A buffer shorter than `OBUF` (95 T115), the fullest that SMALLCFG's `NMEM` gives (95 T129), and one of exactly
`OCAP` bytes. -/
theorem witness_FinishBuildsBuffer :
    (pushed.phase = .load ∧ pushed.ncnt = [1, 7, (0 : NCode)].length ∧ pushed.xcnt = [(0 : XCode)].length ∧
      MemHolds pushed.nmem [1, 7, 0] ∧ MemHolds pushed.xmem [0] ∧ bufferBytes 3 1 ≤ pushed.cfg.ocap) ∧
    (MemHolds full.nmem [1, 1, 1, 1, 1, 1, 1, 0] ∧ MemHolds full.xmem [] ∧ bufferBytes 8 0 ≤ full.cfg.ocap) ∧
    bufferBytes 8 0 = 7 ∧ bufferBytes 8 1 = Config.small.ocap := by
  unfold MemHolds; decide

theorem witness_FinishOffersFirstByte :
    pushed.phase = .load ∧ ∃ t, exec .finish pushed = .next t ∧ t.phase ≠ .fault :=
  ⟨rfl, draining 0, next?_eq (by decide +kernel), by decide⟩

/-- The first and the last byte of a buffer. -/
theorem witness_PopDelivers :
    (draining 0).phase = .drain ∧ (draining 0).obuf.read (draining 0).rp = some 0 ∧
      (draining 6).obuf.read (draining 6).rp = some 0 ∧ (draining 6).rp + 1 = (draining 6).olen ∧
      pushed.phase ≠ .drain := by decide

theorem witness_DrainDeliversBuffer :
    (draining 0).phase = .drain ∧ (draining 0).rp = 0 ∧ (draining 0).olen = [0, 0, 0, 0, (0x3C : Byte), 0, 0].length ∧
      MemHolds (draining 0).obuf [0, 0, 0, 0, 0x3C, 0, 0] := by
  unfold MemHolds; decide

/-- Position 1, and gaps 1 to 6 at position 32. -/
theorem witness_GapRowsEmit :
    AtSetBit ⟨1, 1, 0, [], [], false⟩ ∧ 1 - 0 = 1 ∧ AtSetBit ⟨0x80000000, 32, 31, [], [], false⟩ ∧ 32 - 31 = 1 ∧
      32 - 30 = 2 ∧ 32 - 29 = 3 ∧ 32 - 28 = 4 ∧ 32 - 27 = 5 ∧ 32 - 26 = 6 ∧
      (scanning 0x80000000 32 26).scan = some ⟨0x80000000, 32, 26, [], [], false⟩ := by
  unfold AtSetBit; decide

/-- Gaps 7 and 32. -/
theorem witness_EscRowEmits :
    AtSetBit ⟨0x80000000, 32, 25, [], [], false⟩ ∧ 7 ≤ 32 - 25 ∧ AtSetBit ⟨0x80000000, 32, 0, [], [], false⟩ ∧
      32 - 0 ≤ 32 ∧ (scanning 0x80000000 32 0).scan = some ⟨0x80000000, 32, 0, [], [], false⟩ := by
  unfold AtSetBit; decide

/-- The codes 0 and 25. -/
theorem witness_XcodeRowEmits :
    AtSetBit ⟨0x80000000, 32, 25, [], [], false⟩ ∧ 32 - 25 = 7 + (0 : XCode).toNat ∧
      AtSetBit ⟨0x80000000, 32, 0, [], [], false⟩ ∧ 32 - 0 = 7 + (25 : XCode).toNat ∧ (25 : XCode).toNat ≤ 25 ∧
      (scanning 0x80000000 32 0).scan = some ⟨0x80000000, 32, 0, [], [], false⟩ := by
  unfold AtSetBit; decide

/-- A zero difference value, and a scan past position 32. -/
theorem witness_TermRowEmits :
    (scanning 0 1 0).scan = some ⟨0, 1, 0, [], [], false⟩ ∧ (1 : Nat) ≤ 1 ∧
      (∀ p, 1 ≤ p → p ≤ 32 → (0 : Word).getLsbD (p - 1) = false) ∧
      (scanning 0x80000000 33 32).scan = some ⟨0x80000000, 33, 32, [], [], false⟩ ∧
      (∀ p, 33 ≤ p → p ≤ 32 → (0x80000000 : Word).getLsbD (p - 1) = false) :=
  ⟨rfl, by decide, fun p _ _ => by simp, rfl, fun p h h' => absurd (Nat.le_trans h h') (by decide)⟩

theorem witness_OperationsThatDoNotComeUp :
    pushed.phase ≠ .drain ∧ pushed.scan = none ∧ emissionRow .term = true ∧ emissionRow (.xcode 25) = true := by decide

theorem witness_EmissionsRebuildScan :
    { pushed with scan := some (Scan.start 0xDEADBEEF) }.scan = some (Scan.start 0xDEADBEEF) := rfl

theorem witness_ScanIsDecodable : scan 5 = scan (4 + 1) := rfl

/-- REFCFG: 124 words are what the rule allows. -/
theorem witness_SufficientCapacity :
    (List.replicate 2 (0xFFFFFFFF : Word)).length ≤ (4096 : Nat) / 33 ∧ Config.ref.ncap / 33 = 124 ∧ 2 ≤ Config.ref.xcap / 4 ∧
      4 + ceilDiv (99 * 2) 8 + ceilDiv (20 * 2) 8 ≤ Config.ref.ocap ∧ (scan 0xFFFFFFFF).1.length = 33 := by decide +kernel

theorem witness_CountFieldBytes : (BitVec.ofNat 64 (2 ^ 40 - 1)).toNat < 2 ^ 40 := by decide

/-- A field of each width whose last byte is the last of the buffer, and one whose last byte is the first beyond it (95
T78, T79). -/
theorem witness_PutBitsWritesField :
    4 + (5 + 3 - 1) / 8 < 5 ∧ 5 ≤ 4 + (6 + 3 - 1) / 8 ∧ 4 + (3 + 5 - 1) / 8 < 5 ∧ 5 ≤ 4 + (4 + 5 - 1) / 8 ∧
      (∀ a, a < 5 → (Memory.read [(0, (0 : Byte)), (1, 0), (2, 0), (3, 0), (4, 0xFF)] a).isSome) ∧
      Memory.read [(0, (0 : Byte)), (1, 0), (2, 0), (3, 0), (4, 0xFF)] 4 = some 0xFF ∧ bitLoc 4 (5 + 2) = (4, 0) ∧
      (∀ j, j < 3 → bitLoc 4 (5 + j) ≠ (4, 3)) := by decide

theorem witness_PutBitsByteForm : 4 + (5 + 2) / 8 < 5 ∧ 4 + (3 + 4) / 8 < 5 := by decide

/-- A transition, one that enters `FAULT` from `LOAD` for want of room (95 T130), one that is misplaced. -/
theorem witness_PhaseTransitions :
    (∃ t, exec .clear faulted = .next t) ∧
    (∃ t, exec .finish { opened Config.small 0 with ncnt := 6, xcnt := 2 } = .next t ∧ t.phase = .fault ∧
      ∀ a, Instr.finish ≠ .start a) ∧
    (pushed.fault = .none ∧ pushed.phase ≠ .fault ∧ ∃ t, exec (.start 5) pushed = .next t ∧ t.phase = .fault) :=
  ⟨⟨_, rfl⟩, ⟨_, rfl, rfl, fun _ h => by cases h⟩, by decide, by decide, _, rfl, rfl⟩

theorem witness_MisplacedCommandFaults :
    State.reset.fault = .none ∧ State.reset.phase = .idle ∧ pushed.fault = .none ∧ pushed.phase = .load ∧
      (draining 0).fault = .none ∧ (draining 0).phase = .drain := by decide

/-- Each of the three situations by one code or byte (95 T126, T127, T130), and REFCFG, whose OBUF holds all. -/
theorem witness_ResourceFaultExactly :
    (full.fault = .none ∧ full.phase = .load ∧ full.cfg.ncap + 1 = full.ncnt + (scan (full.prev ^^^ 0x7F)).1.length) ∧
    Config.small.xcap + 1 = 2 + (scan (0x4081 ^^^ 0x00204081)).2.length ∧ bufferBytes 6 2 = Config.small.ocap + 1 ∧
    (∃ t, exec (.push 0x7F) full = .next t ∧ t.fault = .resource) ∧
    (bufferBytes Config.ref.ncap Config.ref.xcap ≤ Config.ref.ocap ∧ pushed.ncnt ≤ pushed.cfg.ncap) :=
  ⟨by decide +kernel, by decide +kernel, by decide, ⟨raiseFault .resource full, next?_eq (by decide +kernel), by decide⟩, by decide⟩

/-- A packing of each region (95 T115), and the bytes where the ranges meet. -/
theorem witness_pack_writers :
    (∃ o, packN (draining 0) 7 (draining 0).obuf = .done o) ∧ (∃ o, packX (draining 0) 7 (draining 0).obuf = .done o) ∧
      (inHeader 3 = true ∧ inHeader 4 = false ∧ inNormal 3 3 = false ∧ inNormal 3 4 = true ∧ inNormal 3 5 = true ∧
        inNormal 3 6 = false ∧ inExceptional 3 1 5 = false ∧ inExceptional 3 1 6 = true ∧ inExceptional 3 1 7 = false) ∧
      lastByte 4 (3 * 2) 3 = 5 ∧ lastByte 6 (5 * 0) 5 = 6 ∧ bufferBytes 3 1 = 7 :=
  ⟨⟨(draining 0).obuf, by decide⟩, ⟨(draining 0).obuf, by decide⟩, by decide, by decide, by decide, by decide⟩

theorem witness_BitWriteFaultUnreachable :
    ∃ t, exec .finish { pushed with phase := .fault, fault := .bitwrite } = .next t ∧ t.fault = .bitwrite :=
  ⟨_, rfl, rfl⟩

theorem witness_FaultStateDiscards : faulted.phase = .fault := rfl

/-- A discarded command, a reset and a CLEAR. -/
theorem witness_FaultIsSticky :
    faulted.fault ≠ .none ∧ (∃ t, step { faulted with pending := [.word ⟨.cmd, 5⟩] } = .next t) ∧
      (∃ t, step { faulted with pending := [.reset] } = .next t) ∧
      (∃ t, step { faulted with pending := [.word ⟨.cmd, 0x300000000⟩] } = .next t) :=
  ⟨by decide, ⟨_, rfl⟩, ⟨_, rfl⟩, ⟨_, rfl⟩⟩

theorem witness_FaultExactlyInFaultPhase :
    ((faulted.fault ≠ .none ↔ faulted.phase = .fault) ∧ ∃ t, step faulted = .next t) ∧
      (pushed.fault ≠ .none ↔ pushed.phase = .fault) := ⟨⟨by decide, _, rfl⟩, by decide⟩

theorem witness_OutputPort :
    (draining 6).phase = .drain ∧ (draining 6).obuf.read (draining 6).rp = some 0 ∧ faulted.phase ≠ .drain := by decide

theorem witness_StatusOutputs :
    pushed.phase ≠ .fault ∧ faulted.phase = .fault ∧ (draining 6).phase = .drain ∧ ∃ t, exec .pop (draining 6) = .next t :=
  ⟨by decide, rfl, rfl, _, rfl⟩

theorem witness_ParametersFixed : ∃ t, step State.reset = .next t := ⟨_, rfl⟩

theorem witness_FrameOfRowsThatStoreNothing :
    (State.reset.phase = .idle ∧ ∃ t, exec (.start 1) State.reset = .next t) ∧ (∃ t, exec .clear faulted = .next t) ∧
      (∃ t, exec .pop (draining 6) = .next t) ∧
      (emissionRow .esc = true ∧ ∃ t, exec .esc (scanning 0x40 1 0) = .next t) ∧
      (pushed.phase ≠ .fault ∧ ∃ t, exec (.start 1) pushed = .next t ∧ t.phase = .fault) :=
  ⟨⟨rfl, _, rfl⟩, ⟨_, rfl⟩, ⟨_, rfl⟩, ⟨rfl, _, rfl⟩, by decide, _, rfl, rfl⟩

/-- With room, and the entries just below and just above what is stored. -/
theorem witness_FrameOfPush :
    (pushed.phase = .load ∧ ∃ t, exec (.push 0x81) pushed = .next t ∧ t.phase ≠ .fault) ∧ 2 < pushed.ncnt ∧
      pushed.ncnt + (scan (delta pushed.prev 0x81)).1.length ≤ 4 ∧ 0 < pushed.xcnt ∧
      pushed.xcnt + (scan (delta pushed.prev 0x81)).2.length ≤ 1 :=
  ⟨⟨rfl, _, rfl, by decide +kernel⟩, by decide, by decide +kernel, by decide, by decide +kernel⟩

theorem witness_FrameOfFinishAndHeader :
    (pushed.phase = .load ∧ ∃ t, exec .finish pushed = .next t ∧ t.phase ≠ .fault) ∧ bufferBytes pushed.ncnt pushed.xcnt ≤ 7 ∧
      ∃ t, exec (.header 0 0 0 0) pushed = .next t :=
  ⟨⟨rfl, draining 0, next?_eq (by decide +kernel), by decide⟩, by decide, _, rfl⟩

/-- The words of a transaction held in `LOAD`. -/
theorem witness_CountersMatchStreams : Holds [0x81] pushed where
  count_eq := rfl
  ncnt_eq := by decide +kernel
  xcnt_eq := by decide +kernel
  fits := by unfold FitsStreams; decide +kernel
  nmem := by unfold MemHolds; decide +kernel
  xmem := by unfold MemHolds; decide +kernel
  prev_eq := fun _ => rfl
  buffer := fun h => absurd h (by decide)

/-- The words of a transaction held in `DRAIN`, with the last byte to deliver. -/
theorem witness_holds_in_drain : Holds [0x81] (draining 6) where
  count_eq := rfl
  ncnt_eq := by decide +kernel
  xcnt_eq := by decide +kernel
  fits := by unfold FitsStreams; decide +kernel
  nmem := by unfold MemHolds; decide +kernel
  xmem := by unfold MemHolds; decide +kernel
  prev_eq := fun _ => rfl
  buffer := fun _ => by unfold MemHolds; decide +kernel

/-- An invariant state in `DRAIN`. -/
theorem witness_inv_drain : Inv (draining 6) where
  cfg_ok := by decide
  nmem_wf := by decide
  xmem_wf := by decide
  obuf_wf := by decide
  nmem_in := by decide
  xmem_in := by decide
  obuf_in := by decide
  faulted := by decide
  no_scan := rfl
  pointers := by decide
  words := fun _ => ⟨_, witness_holds_in_drain⟩

theorem witness_StepKeepsInvariant : Inv (draining 6) ∧ ∃ t, step (draining 6) = .next t :=
  ⟨witness_inv_drain, _, rfl⟩

/-- The draining state with the transfer of its last byte offered. -/
theorem witness_InvariantNeverStops :
    Inv { draining 6 with pending := [.word ⟨.pop, 0⟩] } ∧ decode ⟨.pop, 0⟩ = .ok .pop ∧ ∀ v, Instr.pop ≠ .xcodeNever v :=
  ⟨{ cfg_ok := witness_inv_drain.cfg_ok, nmem_wf := witness_inv_drain.nmem_wf, xmem_wf := witness_inv_drain.xmem_wf
     obuf_wf := witness_inv_drain.obuf_wf, nmem_in := witness_inv_drain.nmem_in, xmem_in := witness_inv_drain.xmem_in
     obuf_in := witness_inv_drain.obuf_in, faulted := witness_inv_drain.faulted, no_scan := rfl
     pointers := witness_inv_drain.pointers
     words := fun _ => ⟨_, { witness_holds_in_drain with }⟩ }, by decide, fun v h => by cases h⟩

/-- A transaction that fills `NMEM` exactly (95 T128, T129). -/
theorem witness_TransactionDeliversEncodedBuffer :
    { State.reset with cfg := Config.small }.phase = .idle ∧ Fits Config.small 0 [0x7F] ∧
      (normalStream [0x7F]).length = Config.small.ncap := by
  unfold Fits FitsStreams; decide +kernel

/-- 95 P4 for the PUSH, P5 for the FINISH. -/
theorem witness_OverflowingTransactionFaults :
    { State.reset with cfg := Config.small }.phase = .idle ∧ { State.reset with cfg := Config.small }.fault = .none ∧
      FitsStreams Config.small [0x81] ∧ ¬ FitsStreams Config.small ([0x81] ++ [0xFF]) ∧
      FitsStreams Config.small [0x40, 0xC0, 0xC0, 0xC0] ∧
      Config.small.ocap < (encodeBuffer Config.small.cntSel 0 [0x40, 0xC0, 0xC0, 0xC0]).length := by
  unfold FitsStreams; decide +kernel

theorem witness_TransactionsIndependent :
    State.reset.cfg = (leaveFault pushed).cfg ∧ State.reset.phase = .idle ∧ (leaveFault pushed).phase = .idle ∧
      State.reset.fault = .none ∧ (leaveFault pushed).fault = .none ∧
      ∀ i ∈ [Instr.push 5, .finish, .pop, .clear], hostOperation i = true := by decide

end Sys2Proof.Tests
end

section
/-! SUPPORT. What PACK leaves in `OBUF`, as the list of bytes of 42_pack.md R146. -/

namespace Sys2Proof.Machine

open Sys2Proof.Safety

/-- A region bit, its two cases in one: a bit of the code it falls in, or 0 past the last code (42_pack.md R146). -/
theorem regionBit_eq {w : Nat} (hw : 0 < w) (codes : List (BitVec w)) (q : Nat) :
    regionBit codes q =
      if q < w * codes.length then (codes.getD (q / w) 0).getLsbD (w - 1 - q % w) else false := by
  have hq : q / w < codes.length ↔ q < w * codes.length := by rw [Nat.div_lt_iff_lt_mul hw, Nat.mul_comm]
  unfold regionBit
  by_cases h : q / w < codes.length
  · rw [if_pos (hq.1 h), List.getElem?_eq_getElem h, List.getD_eq_getElem _ _ h]
  · rw [if_neg (mt hq.2 h), List.getElem?_eq_none (by omega)]

@[simp] theorem regionBytes_length {w : Nat} (codes : List (BitVec w)) :
    (regionBytes codes).length = ceilDiv (w * codes.length) 8 := by
  simp [regionBytes]

theorem regionBytes_getElem? {w : Nat} (codes : List (BitVec w)) {a : Nat} (h : a < ceilDiv (w * codes.length) 8) :
    (regionBytes codes)[a]? = some (byteOfBits (fun i => regionBit codes (8 * a + i))) := by
  simp [regionBytes, h]

/-- A byte of `OBUF` whose eight bits are known. -/
theorem read_eq_byteOfBits {o : Memory 8} {a : Nat} {f : Nat → Bool}
    (h : ∀ i, i < 8 → absBit o (8 * a + i) = some (f i)) : o.read a = some (byteOfBits f) := by
  have hr : Memory.read [(a, byteOfBits f)] a = some (byteOfBits f) := by simp [Memory.read_cons]
  rw [← hr]
  refine read_of_absBit a (fun i hi => ?_)
  rw [h i hi, absBit, show (8 * a + i) / 8 = a by omega, show (8 * a + i) % 8 = i by omega, hr, Option.map_some,
    byteOfBits_getLsbD f hi]

/-- `OBUF` before the codes are packed: past the header every bit of the buffer is 0 (42_pack.md R140, 20_memory.md
R63). -/
theorem absBit_header_fill (sel : CntSel) (alg : Byte) (count : BitVec 64) (o : Memory 8) {n P : Nat} (h : 32 ≤ P)
    (hP : P < 8 * n) : absBit (headerBytes sel alg count (o.fill 0#8 n)) P = some false := by
  have h4 : 4 ≤ P / 8 := by omega
  rw [absBit, headerBytes_read, if_neg (by omega), if_neg (by omega), if_neg (by omega), if_neg (by omega),
    Memory.read_fill, if_pos (by omega)]
  simp

/-- The header's bytes are those of `headerOf` (42_pack.md R132). -/
theorem headerBytes_read_header (sel : CntSel) (alg : Byte) (count : BitVec 64) (o : Memory 8) {a : Nat} (h : a < 4) :
    (headerBytes sel alg count o).read a = (headerOf sel alg count)[a]? := by
  rw [headerBytes_read]
  interval_cases a <;> simp [headerOf]

/-- A memory that holds a list reads, at every place of the list, the list's element. -/
theorem memHolds_read_getD {w : Nat} {m : Memory w} {l : List (BitVec w)} (h : MemHolds m l) {i : Nat}
    (hi : i < l.length) : m.read i = some (l.getD i 0) := by
  rw [h i hi, List.getElem?_eq_getElem hi, List.getD_eq_getElem _ _ hi]

/-- Bytes of `OBUF` whose bits are those of a region read as the bytes of the region. -/
theorem read_region {w base : Nat} {o : Memory 8} {codes : List (BitVec w)}
    (h : ∀ q, q < 8 * ceilDiv (w * codes.length) 8 → absBit o (8 * base + q) = some (regionBit codes q)) {a : Nat}
    (ha : a < ceilDiv (w * codes.length) 8) : o.read (base + a) = (regionBytes codes)[a]? := by
  rw [regionBytes_getElem? codes ha]
  refine read_eq_byteOfBits (fun i hi => ?_)
  rw [Nat.mul_add, Nat.add_assoc]
  exact h _ (by omega)

/-- PACK rewrites bytes that have a value: it keeps the shape of `OBUF` filled with 0 under its header. -/
theorem pack_done_sameShape {s : State} {o : Memory 8} (h : pack s = .done o) :
    SameShape (headerBytes s.cfg.cntSel s.alg s.count (s.obuf.fill 0#8 (bufferBytes s.ncnt s.xcnt))) o := by
  obtain ⟨hfit, hn, hx⟩ := pack_done s o h
  obtain ⟨o', ho', hshape, -⟩ := pack_spec s (fun i => (s.nmem.read i).getD 0)
    (fun i => (s.xmem.read i).getD 0) hfit
    (fun i hi => (Option.getD_of_ne_none (Option.isSome_iff_ne_none.1 (hn i hi)) 0).symm)
    (fun i hi => (Option.getD_of_ne_none (Option.isSome_iff_ne_none.1 (hx i hi)) 0).symm)
  rw [h] at ho'
  cases ho'
  exact hshape

/-- PACK keeps the canonical form of `OBUF`. -/
theorem pack_done_wf {s : State} {o : Memory 8} (h : pack s = .done o) (hw : s.obuf.wf = true) : o.wf = true :=
  (pack_done_sameShape h).wf (headerBytes_wf _ _ _ (Memory.wf_fill _ _ _ hw))

/-- PACK stays within the capacity of `OBUF` (20_memory.md R70). -/
theorem pack_done_below {s : State} {o : Memory 8} (h : pack s = .done o) (hb : s.obuf.below s.cfg.ocap = true) :
    o.below s.cfg.ocap = true := by
  obtain ⟨hfit, -, -⟩ := pack_done s o h
  refine (pack_done_sameShape h).below _ (headerBytes_below _ _ _ (Memory.below_fill _ _ hb hfit) ?_)
  exact le_trans (by unfold bufferBytes; omega) hfit

/-- What PACK leaves in the bits of `OBUF`: the header, and the two regions with their padding (42_pack.md R140,
R146). -/
theorem pack_done_bits {s : State} {o : Memory 8} {N : List NCode} {X : List XCode} (h : pack s = .done o)
    (hN : s.ncnt = N.length) (hX : s.xcnt = X.length) (hn : MemHolds s.nmem N) (hx : MemHolds s.xmem X) :
    (∀ P, P < 32 → absBit o P =
        absBit (headerBytes s.cfg.cntSel s.alg s.count (s.obuf.fill 0#8 (bufferBytes s.ncnt s.xcnt))) P) ∧
    (∀ q, q < 8 * normalBytes s.ncnt → absBit o (8 * 4 + q) = some (regionBit N q)) ∧
    (∀ q, q < 8 * exceptionalBytes s.xcnt →
      absBit o (8 * (4 + normalBytes s.ncnt) + q) = some (regionBit X q)) := by
  obtain ⟨hfit, -, -⟩ := pack_done s o h
  obtain ⟨o', ho', -, hbits⟩ := pack_spec s (fun i => N.getD i 0) (fun i => X.getD i 0) hfit
    (fun i hi => memHolds_read_getD hn (hN ▸ hi)) (fun i hi => memHolds_read_getD hx (hX ▸ hi))
  rw [h] at ho'
  cases ho'
  have bn := normalBytes_bounds s.ncnt
  have bx := exceptionalBytes_bounds s.xcnt
  have hlen : bufferBytes s.ncnt s.xcnt = 4 + normalBytes s.ncnt + exceptionalBytes s.xcnt := rfl
  refine ⟨fun P hP => ?_, fun q hq => ?_, fun q hq => ?_⟩
  · rw [hbits, if_neg (by omega), if_neg (by omega)]
  · rw [hbits, regionBit_eq (by omega), ← hN, show 8 * 4 + q - 32 = q by omega]
    split
    · rw [if_pos (by omega)]
    · rw [if_neg (by omega), if_neg (by omega), absBit_header_fill _ _ _ _ (by omega) (by omega)]
  · rw [hbits, if_neg (by omega), regionBit_eq (by omega), ← hX, Nat.add_sub_cancel_left]
    split
    · rw [if_pos (by omega)]
    · rw [if_neg (by omega), absBit_header_fill _ _ _ _ (by omega) (by omega)]

/-- Where PACK is done, `OBUF` holds the header and the two regions, byte for byte (42_pack.md R140, R146). -/
theorem pack_done_memHolds {s : State} {o : Memory 8} {N : List NCode} {X : List XCode} (h : pack s = .done o)
    (hN : s.ncnt = N.length) (hX : s.xcnt = X.length) (hn : MemHolds s.nmem N) (hx : MemHolds s.xmem X) :
    MemHolds o (headerOf s.cfg.cntSel s.alg s.count ++ (regionBytes N ++ regionBytes X)) := by
  obtain ⟨hhdr, hnb, hxb⟩ := pack_done_bits h hN hX hn hx
  rw [hN] at hnb hxb
  rw [hX] at hxb
  have hhl : (headerOf s.cfg.cntSel s.alg s.count).length = 4 := rfl
  have hnl : (regionBytes N).length = normalBytes N.length := regionBytes_length N
  have hxl : (regionBytes X).length = exceptionalBytes X.length := regionBytes_length X
  intro k hk
  rw [List.length_append, List.length_append, hhl, hnl, hxl] at hk
  by_cases h4 : k < 4
  · rw [List.getElem?_append_left h4, ← headerBytes_read_header _ _ _ _ h4]
    exact read_of_absBit k (fun i hi => hhdr _ (by omega))
  obtain ⟨a, rfl⟩ := Nat.exists_eq_add_of_le (Nat.le_of_not_lt h4)
  rw [List.getElem?_append_right (by omega), hhl, Nat.add_sub_cancel_left]
  by_cases ha : a < normalBytes N.length
  · rw [List.getElem?_append_left (by omega)]
    exact read_region hnb ha
  obtain ⟨b, rfl⟩ := Nat.exists_eq_add_of_le (Nat.le_of_not_lt ha)
  rw [List.getElem?_append_right (by omega), hnl, Nat.add_sub_cancel_left, ← Nat.add_assoc]
  refine read_region hxb ?_
  change b < exceptionalBytes X.length
  omega

/-- The length of an encoded buffer (42_pack.md R147). -/
theorem encodeBuffer_length (sel : CntSel) (a : Byte) (t : List Word) :
    (encodeBuffer sel a t).length = bufferBytes (normalStream t).length (exceptionalStream t).length := by
  rw [encodeBuffer, List.length_append, List.length_append, regionBytes_length, regionBytes_length, ← Nat.add_assoc]
  rfl

end Sys2Proof.Machine
end

section
/-! SUPPORT. The streams of a transaction with one more word (40_delta.md R101, 41_symbol.md R121), and what a memory
holds after the appends of a PUSH (44_commands.md R178). -/

namespace Sys2Proof.Machine

open Sys2Proof.Safety

theorem diffsFrom_concat (p : Word) (t : List Word) (w : Word) :
    diffsFrom p (t ++ [w]) = diffsFrom p t ++ [delta (t.getLastD p) w] := by
  induction t generalizing p with
  | nil => rfl
  | cons v t ih => simp only [List.cons_append, diffsFrom, ih, List.getLastD_cons]

theorem normalStream_concat (t : List Word) (w : Word) :
    normalStream (t ++ [w]) = normalStream t ++ (scan (delta (t.getLastD 0) w)).1 := by
  simp [normalStream, diffs, diffsFrom_concat]

theorem exceptionalStream_concat (t : List Word) (w : Word) :
    exceptionalStream (t ++ [w]) = exceptionalStream t ++ (scan (delta (t.getLastD 0) w)).2 := by
  simp [exceptionalStream, diffs, diffsFrom_concat]

/-- A memory holds a longer list once the new elements stand behind the old ones. -/
theorem memHolds_append {w : Nat} {m m' : Memory w} {l r : List (BitVec w)} (h : MemHolds m l)
    (hr : ∀ k, m'.read k = if l.length ≤ k ∧ k < l.length + r.length then r[k - l.length]? else m.read k) :
    MemHolds m' (l ++ r) := by
  intro k hk
  rw [List.length_append] at hk
  rw [hr]
  by_cases hl : k < l.length
  · rw [if_neg (by omega), h k hl, List.getElem?_append_left hl]
  · rw [if_pos (by omega), List.getElem?_append_right (by omega)]

end Sys2Proof.Machine
end

section
/-! SUPPORT. The invariant of the block (10_state.md R39) under everything an operation can do (`Did`), one lemma for
each. -/

namespace Sys2Proof.Safety

open Sys2Proof.Machine

variable {s : State}

theorem Inv.fault_none (h : Inv s) (hp : s.phase ≠ .fault) : s.fault = .none :=
  not_not.1 (mt h.faulted.1 hp)

/-- With the counters at 0 the words are none (10_state.md R39), before a buffer is built. -/
theorem Holds.of_zero (hc : s.count = 0) (hn : s.ncnt = 0) (hx : s.xcnt = 0) (hd : s.phase ≠ .drain)
    (hp : s.phase = .load → s.prev = 0) : Holds [] s where
  count_eq := hc
  ncnt_eq := hn
  xcnt_eq := hx
  fits := ⟨Nat.zero_le _, Nat.zero_le _⟩
  nmem := fun k hk => absurd hk (Nat.not_lt_zero k)
  xmem := fun k hk => absurd hk (Nat.not_lt_zero k)
  prev_eq := fun h => hp (h.resolve_right hd)
  buffer := fun h => absurd h hd

/-- The model's own counter and list of offers are no part of the invariant. -/
theorem Inv.takeOffer (rest : List Offer) (h : Inv s) : Inv (takeOffer rest s) :=
  { h with words := fun hp => (h.words hp).imp fun _ ht => { ht with } }

theorem Inv.idleStep (h : Inv s) : Inv (idleStep s) :=
  { h with words := fun hp => (h.words hp).imp fun _ ht => { ht with } }

/-- 70_reset_and_hazards.md R230. -/
theorem Inv.resetRegisters (h : Inv s) : Inv (resetRegisters s) :=
  { h with
    faulted := by simp
    no_scan := rfl
    pointers := fun _ => ⟨Nat.le_refl _, Nat.zero_le _⟩
    words := fun _ => ⟨[], .of_zero rfl rfl rfl (by simp) (by simp)⟩ }

/-- 44_commands.md R184, 60_exceptions.md R209. -/
theorem Inv.leaveFault (h : Inv s) : Inv (leaveFault s) :=
  { h with
    faulted := by simp
    no_scan := rfl
    pointers := fun _ => ⟨Nat.le_refl _, Nat.zero_le _⟩
    words := fun _ => ⟨[], .of_zero rfl rfl rfl (by simp) (by simp)⟩ }

/-- 60_exceptions.md R206: in `FAULT` nothing is asked of the registers. -/
theorem Inv.raiseFault {c : FaultCode} (hc : c ≠ .none) (h : Inv s) : Inv (raiseFault c s) :=
  { h with
    faulted := by
      refine iff_of_true ?_ rfl
      rw [raiseFault_fault]
      split
      · exact hc
      · assumption
    pointers := fun hp => absurd rfl hp
    words := fun hp => absurd rfl hp }

/-- 44_commands.md R176. -/
theorem Inv.openTransaction (a : Byte) (hp : s.phase = .idle) (h : Inv s) : Inv (openTransaction a s) :=
  { h with
    faulted := by simp [h.fault_none (by simp [hp])]
    no_scan := rfl
    pointers := fun _ => ⟨Nat.le_refl _, Nat.zero_le _⟩
    words := fun _ => ⟨[], .of_zero rfl rfl rfl (by simp) (fun _ => rfl)⟩ }

/-- The words of a transaction after a PUSH that fits (44_commands.md R178). -/
theorem Holds.appendWord {t : List Word} (w : Word) (hp : s.phase = .load)
    (hc : codesFit s (scan (delta s.prev w)) = true) (h : Holds t s) :
    Holds (t ++ [w]) (appendWord w (scan (delta s.prev w)) s) := by
  obtain ⟨hn, hx⟩ := (codesFit_iff _ _).1 hc
  have hN : normalStream (t ++ [w]) = normalStream t ++ (scan (delta s.prev w)).1 := by
    rw [normalStream_concat, h.prev_eq (.inl hp)]
  have hX : exceptionalStream (t ++ [w]) = exceptionalStream t ++ (scan (delta s.prev w)).2 := by
    rw [exceptionalStream_concat, h.prev_eq (.inl hp)]
  rw [appendWord_eq]
  exact
    { count_eq := by
        simp only [h.count_eq, List.length_append, List.length_singleton]
        exact (BitVec.ofNat_add t.length 1).symm
      ncnt_eq := by simp only [hN, h.ncnt_eq, List.length_append]
      xcnt_eq := by simp only [hX, h.xcnt_eq, List.length_append]
      fits := by
        rw [h.ncnt_eq] at hn
        rw [h.xcnt_eq] at hx
        exact ⟨by rwa [hN, List.length_append], by rwa [hX, List.length_append]⟩
      nmem := hN ▸ memHolds_append h.nmem (fun k => h.ncnt_eq ▸ nAppends_read s _ k)
      xmem := hX ▸ memHolds_append h.xmem (fun k => h.xcnt_eq ▸ xAppends_read s _ k)
      prev_eq := fun _ => by simp
      buffer := fun hd => by simp [hp] at hd }

/-- 44_commands.md R178. -/
theorem Inv.appendWord (w : Word) (hp : s.phase = .load) (hc : codesFit s (scan (delta s.prev w)) = true)
    (h : Inv s) : Inv (appendWord w (scan (delta s.prev w)) s) := by
  obtain ⟨t, ht⟩ := h.words (by simp [hp])
  have hwords := ht.appendWord w hp hc
  obtain ⟨hn, hx⟩ := (codesFit_iff _ _).1 hc
  rw [appendWord_eq] at hwords ⊢
  exact
    { h with
      nmem_wf := nAppends_wf s _ h.nmem_wf
      xmem_wf := xAppends_wf s _ h.xmem_wf
      nmem_in := nAppends_below s _ h.nmem_in hn
      xmem_in := xAppends_below s _ h.xmem_in hx
      no_scan := rfl
      words := fun _ => ⟨_, hwords⟩ }

/-- 44_commands.md R180: the buffer is built. -/
theorem Inv.built {o : Memory 8} (hp : s.phase = .load) (hk : pack s = .done o) (h : Inv s) :
    Inv { s with olen := bufferBytes s.ncnt s.xcnt, obuf := o, rp := 0, phase := .drain } := by
  obtain ⟨t, ht⟩ := h.words (by simp [hp])
  obtain ⟨hfit, -, -⟩ := pack_done s o hk
  have hin := pack_done_below hk h.obuf_in
  have hmem := pack_done_memHolds hk ht.ncnt_eq ht.xcnt_eq ht.nmem ht.xmem
  rw [ht.count_eq] at hmem
  have hpos : 0 < bufferBytes s.ncnt s.xcnt := by unfold bufferBytes; omega
  exact
    { h with
      obuf_wf := pack_done_wf hk h.obuf_wf
      obuf_in := hin
      faulted := by simp [h.fault_none (by simp [hp])]
      pointers := fun _ => ⟨Nat.zero_le _, hfit⟩
      words := fun _ => ⟨t, { ht with
        prev_eq := fun _ => ht.prev_eq (.inl hp)
        buffer := fun _ => ⟨by rw [encodeBuffer_length, ← ht.ncnt_eq, ← ht.xcnt_eq], hpos, hmem⟩ }⟩ }

/-- 44_commands.md R182: the last byte ends the drain, so `rp` stays below `olen` in `DRAIN`. -/
theorem Inv.deliver (b : Byte) (hp : s.phase = .drain) (h : Inv s) : Inv (deliver b s) := by
  have hpf : s.phase ≠ .fault := by simp [hp]
  obtain ⟨t, ht⟩ := h.words hpf
  obtain ⟨hlen, hrp, hmem⟩ := ht.buffer hp
  have hphase : (Machine.deliver b s).phase ≠ .fault := by rw [deliver_phase]; split <;> simp [hp]
  have hlast : (Machine.deliver b s).phase = .drain → s.rp + 1 ≠ s.olen := by
    rw [deliver_phase]
    split
    · simp
    · rename_i hl; exact fun _ => by simpa [atLast] using hl
  exact
    { h with
      faulted := iff_of_false (by simp [h.fault_none hpf]) hphase
      pointers := fun _ => ⟨hrp, (h.pointers hpf).2⟩
      words := fun _ => ⟨t, { ht with
        prev_eq := fun _ => ht.prev_eq (.inr hp)
        buffer := fun hd => ⟨hlen, Nat.lt_of_le_of_ne hrp (hlast hd), hmem⟩ }⟩ }

/-- 42_pack.md R132: in `DRAIN` the header row writes the four bytes the buffer begins with already. -/
theorem Inv.headed (h : Inv s) : Inv { s with obuf := headerBytes s.cfg.cntSel s.alg s.count s.obuf } := by
  obtain ⟨-, -, hcap, -⟩ := h.cfg_ok
  refine
    { h with
      obuf_wf := headerBytes_wf _ _ _ h.obuf_wf
      obuf_in := headerBytes_below _ _ _ h.obuf_in hcap
      words := fun hp => (h.words hp).imp fun t ht => { ht with buffer := fun hd => ?_ } }
  obtain ⟨hlen, hrp, hmem⟩ := ht.buffer hd
  refine ⟨hlen, hrp, fun k hk => ?_⟩
  by_cases h4 : k < 4
  · rw [headerBytes_read_header _ _ _ _ h4, ht.count_eq, encodeBuffer, List.getElem?_append_left h4]
  · rw [headerBytes_read, if_neg (by omega), if_neg (by omega), if_neg (by omega), if_neg (by omega)]
    exact hmem k hk

/-- No scan is in flight between operations, so an emission row changes nothing (10_state.md R29; log entry 8). -/
theorem Inv.onScan (f : Scan → Scan) (h : Inv s) : Inv (onScan f s) :=
  { h with
    no_scan := by rw [onScan_scan, h.no_scan, Option.map_none]
    words := fun hp => (h.words hp).imp fun _ ht => { ht with } }

/-- Whatever an operation does, it keeps the invariant. -/
theorem Inv.did {i : Instr} {t : State} (h : Inv s) (hd : Did i s t) : Inv t := by
  cases hd with
  | nothing _ ht => rwa [ht]
  | opened a _ hp ht => exact ht ▸ h.openTransaction a hp
  | pushed w _ hp hc ht => exact ht ▸ h.appendWord w hp hc
  | built o _ hp hk ht => exact ht ▸ h.built hp hk
  | cleared _ ht => exact ht ▸ h.leaveFault
  | delivered b _ hp _ ht => exact ht ▸ h.deliver b hp
  | lacked _ _ ht => exact ht ▸ h.raiseFault (by decide)
  | misplaced _ _ ht => exact ht ▸ h.raiseFault (by decide)
  | headed _ _ _ _ _ ht => exact ht ▸ h.headed
  | emitted f _ ht => exact ht ▸ h.onScan f

end Sys2Proof.Safety
end

section
/-! SUPPORT. Every step keeps the invariant of the block (00_scope.md R8, 10_state.md R26 to R39, 20_memory.md R70). -/

namespace Sys2Proof.Safety

open Sys2Proof.Machine

/-- Settles O55: each thing a step can do (`step_did`) keeps the invariant. -/
theorem stepKeepsInvariant : Obligations.StepKeepsInvariant := by
  intro s t h hstep
  rcases step_did hstep with ⟨-, rfl⟩ | ⟨rest, -, rfl⟩ | ⟨f, rest, i, -, -, hd⟩
  · exact h.idleStep
  · exact (h.takeOffer rest).resetRegisters
  · exact (h.takeOffer rest).did hd

end Sys2Proof.Safety
end

section
/-! SUPPORT. The range of the gaps of a difference value, and of the exceptional codes they give. -/

namespace Sys2Proof.Machine

theorem gaps_bounds {d : Word} {g : Nat} (h : g ∈ gaps d) : 1 ≤ g ∧ g ≤ 32 :=
  gapsFrom_bounds (setBits_sorted d) (fun _ hp => (setBits_mem hp).1) (fun _ hp => (setBits_mem hp).2) g h

theorem gaps_sum_le (d : Word) : (gaps d).sum ≤ 32 := by
  have := gapsFrom_sum (setBits_sorted d) (fun _ hp => (setBits_mem hp).1) (fun _ hp => (setBits_mem hp).2)
    (Nat.zero_le 32)
  rwa [Nat.zero_add] at this

/-- The exceptional codes of SCAN are those of the gaps of 7 or more, in order (41_symbol.md R112, R117). -/
theorem scan_snd (d : Word) :
    (scan d).2 = ((gaps d).filter (fun g => decide (7 ≤ g))).map exceptionalOf := by
  obtain ⟨-, -, -, -, hxs⟩ := visits_spec 32 (Scan.start d)
  rw [gaps, setBits_eq_positionsFrom]
  exact hxs

/-- A gap of at most 32 is cut off by nothing in its 5-bit code (41_symbol.md R115). -/
theorem exceptionalOf_toNat_le {g : Nat} (h : g ≤ 32) : (exceptionalOf g).toNat ≤ 25 := by
  rw [exceptionalOf, BitVec.toNat_ofNat]; omega

/-- Settles O31: the set bits rise strictly within 1 to 32, and an exceptional code is a gap less 7. -/
theorem scanBounds : Obligations.ScanBounds := by
  refine fun d => ⟨fun g => gaps_bounds, gaps_sum_le d, fun x hx => ?_⟩
  rw [scan_snd] at hx
  obtain ⟨g, hg, rfl⟩ := List.mem_map.1 hx
  exact exceptionalOf_toNat_le (gaps_bounds (List.mem_of_mem_filter hg)).2

end Sys2Proof.Machine
end

section
/-! SUPPORT. What 10_state.md R39 (`Holds`) says of the operations that read a memory: FINISH finds every code it packs
and POP the byte it delivers, and the two keep it. -/

namespace Sys2Proof.Machine

/-- FINISH where PACK is done (44_commands.md R180). -/
theorem buildBuffer_done {s : State} {o : Memory 8} (hk : pack s = .done o) :
    buildBuffer s =
      .next { s with olen := bufferBytes s.ncnt s.xcnt, obuf := o, rp := 0, phase := .drain } := by
  rw [buildBuffer, hk]

/-- FINISH where the buffer does not fit (60_exceptions.md R202 (c)). -/
theorem buildBuffer_overflow {s : State} (hc : s.cfg.ocap < bufferBytes s.ncnt s.xcnt) :
    buildBuffer s = .next (raiseFault .resource s) := by
  have hk : pack s = .raised .resource := by rw [pack, if_pos hc]
  rw [buildBuffer, hk]

/-- The legality test stops nothing: a command goes on wherever its rule does in its legal phase. -/
theorem inPhase_next {legal : Phase} {s : State} {rule : Out} (h : s.phase = legal → ∃ t, rule = .next t) :
    ∃ t, inPhase legal s rule = .next t := by
  rcases inPhase_cases legal s rule with ⟨-, hin⟩ | ⟨-, hp, hin⟩ | ⟨-, -, hin⟩
  · exact ⟨s, hin⟩
  · obtain ⟨t, ht⟩ := h hp
    exact ⟨t, hin.trans ht⟩
  · exact ⟨_, hin⟩

end Sys2Proof.Machine

namespace Sys2Proof.Safety

open Sys2Proof.Machine

variable {s : State} {t : List Word}

/-- The length of the buffer FINISH builds is that of the encoded buffer (42_pack.md R147). -/
theorem Holds.bufferBytes_eq (h : Holds t s) (sel : CntSel) (a : Byte) :
    bufferBytes s.ncnt s.xcnt = (encodeBuffer sel a t).length := by
  rw [encodeBuffer_length, h.ncnt_eq, h.xcnt_eq]

/-- Every code below the counters has a value, so PACK is done wherever its buffer fits (20_memory.md R53). -/
theorem Holds.pack_done (h : Holds t s) (hfit : bufferBytes s.ncnt s.xcnt ≤ s.cfg.ocap) :
    ∃ o, pack s = .done o := by
  obtain ⟨o, ho, -⟩ := pack_spec s _ _ hfit (fun _ hi => memHolds_read_getD h.nmem (h.ncnt_eq ▸ hi))
    (fun _ hi => memHolds_read_getD h.xmem (h.xcnt_eq ▸ hi))
  exact ⟨o, ho⟩

/-- In `DRAIN` the byte at `rp` has a value, that of the encoded buffer. -/
theorem Holds.read_rp (h : Holds t s) (hp : s.phase = .drain) :
    s.obuf.read s.rp = some ((encodeBuffer s.cfg.cntSel s.alg t).getD s.rp 0) := by
  obtain ⟨hlen, hrp, hmem⟩ := h.buffer hp
  exact memHolds_read_getD hmem (hlen ▸ hrp)

/-- The buffer FINISH builds is the encoded buffer (44_commands.md R180, 42_pack.md R146). -/
theorem Holds.built {o : Memory 8} (hp : s.phase = .load) (hk : pack s = .done o) (h : Holds t s) :
    Holds t { s with olen := bufferBytes s.ncnt s.xcnt, obuf := o, rp := 0, phase := .drain } := by
  have hmem := pack_done_memHolds hk h.ncnt_eq h.xcnt_eq h.nmem h.xmem
  rw [h.count_eq] at hmem
  exact
    { h with
      prev_eq := fun _ => h.prev_eq (.inl hp)
      buffer := fun _ => ⟨h.bufferBytes_eq _ _, by simp only [bufferBytes]; omega, hmem⟩ }

/-- `rp` stays within the buffer while the drain goes on (44_commands.md R182). -/
theorem Holds.deliver (b : Byte) (hp : s.phase = .drain) (h : Holds t s) : Holds t (deliver b s) := by
  obtain ⟨hlen, hrp, hmem⟩ := h.buffer hp
  refine { h with prev_eq := fun _ => h.prev_eq (.inr hp), buffer := fun hd => ⟨hlen, ?_, hmem⟩ }
  have hlast : s.rp + 1 ≠ s.olen := by
    rintro hl
    simp [atLast, hl] at hd
  exact Nat.lt_of_le_of_ne hrp hlast

end Sys2Proof.Safety
end

section
/-! SUPPORT. No step from a state that meets the invariant stops (20_memory.md R53, R71; 44_commands.md R192). -/

namespace Sys2Proof.Safety

open Sys2Proof.Machine

/-- Only three operations can stop: FINISH and POP, which find every entry they read, and XCODE_NEVER. -/
theorem Inv.exec_next {s : State} (h : Inv s) {i : Instr} (hi : ∀ v, i ≠ .xcodeNever v) :
    ∃ t, exec i s = .next t := by
  cases i with
  | start a => exact inPhase_next fun _ => ⟨_, rfl⟩
  | push w => exact inPhase_next fun _ => ⟨_, rfl⟩
  | finish =>
    refine inPhase_next fun hp => ?_
    obtain ⟨t, ht⟩ := h.words (by simp [hp])
    rcases Nat.lt_or_ge s.cfg.ocap (bufferBytes s.ncnt s.xcnt) with hc | hfit
    · exact ⟨_, buildBuffer_overflow hc⟩
    · obtain ⟨o, hk⟩ := ht.pack_done hfit
      exact ⟨_, buildBuffer_done hk⟩
  | pop =>
    rcases execPop_cases s with ⟨-, hx⟩ | ⟨-, b, -, hx⟩ | ⟨hp, hnone, -⟩
    · exact ⟨s, hx⟩
    · exact ⟨_, hx⟩
    · obtain ⟨t, ht⟩ := h.words (by simp [hp])
      simp [ht.read_rp hp] at hnone
  | xcodeNever v => exact absurd rfl (hi v)
  | _ => exact ⟨_, rfl⟩

/-- Settles O56: nothing offered and a reset go on from every state, and a word runs its operation on a state that meets
the invariant. -/
theorem invariantNeverStops : Obligations.InvariantNeverStops := by
  intro s h hword
  unfold step
  split
  · exact ⟨_, rfl⟩
  · exact ⟨_, rfl⟩
  · rename_i f rest hp
    obtain ⟨i, hd, hi⟩ := hword f rest hp
    simp only [hd]
    exact (h.takeOffer rest).exec_next hi

end Sys2Proof.Safety
end

section
/-! SUPPORT. What a host operation does next depends only on what the host has given the block since START (10_state.md
R45). -/

namespace Sys2Proof.Safety

open Sys2Proof.Machine

/-- All of a state that a later output can depend on: the parameters, the operands of the transaction (identifier and
words) and where the block stands in it. What memory holds besides, and `prev` and the counters, are not in it: `Shows`
reads them off the words. -/
structure View where
  cfg   : Config
  alg   : Byte
  words : List Word
  olen  : Nat
  rp    : Nat
  phase : Phase
  fault : FaultCode

/-- The state has this view. The words are asked for outside `FAULT` and the identifier while a transaction is open,
since elsewhere nothing reads them. -/
structure Shows (v : View) (s : State) : Prop where
  cfg_eq   : s.cfg = v.cfg
  olen_eq  : s.olen = v.olen
  rp_eq    : s.rp = v.rp
  phase_eq : s.phase = v.phase
  fault_eq : s.fault = v.fault
  alg_eq   : v.phase = .load ∨ v.phase = .drain → s.alg = v.alg
  holds    : v.phase ≠ .fault → Holds v.words s

/-- From every state of one view the operation goes on, to states of one view, and the host receives the same bytes. -/
def Answers (v : View) (f : State → Out) : Prop :=
  ∃ v' out, ∀ s, Shows v s → ∃ t, f s = .next t ∧ Shows v' t ∧ t.delivered = s.delivered ++ out

/-- The view after a fault is raised (60_exceptions.md R206). -/
def View.raise (c : FaultCode) (v : View) : View :=
  { v with fault := if v.fault = .none then c else v.fault, phase := .fault }

variable {v : View} {s : State}

theorem Shows.raiseFault (c : FaultCode) (h : Shows v s) : Shows (v.raise c) (raiseFault c s) :=
  { h with
    phase_eq := rfl
    fault_eq := by rw [raiseFault_fault, h.fault_eq]; rfl
    alg_eq := fun hp => by simp [View.raise] at hp
    holds := fun hp => absurd rfl hp }

/-- START takes nothing over but the parameters and the fault (44_commands.md R176). -/
theorem shows_openTransaction (a : Byte) {c : Config} {f : FaultCode} (hc : s.cfg = c) (hf : s.fault = f) :
    Shows ⟨c, a, [], 0, 0, .load, f⟩ (openTransaction a s) where
  cfg_eq := hc
  olen_eq := rfl
  rp_eq := rfl
  phase_eq := rfl
  fault_eq := hf
  alg_eq _ := rfl
  holds _ := .of_zero rfl rfl rfl (by simp) (fun _ => rfl)

/-- 44_commands.md R184. -/
theorem Shows.leaveFault (h : Shows v s) :
    Shows { v with words := [], olen := 0, rp := 0, phase := .idle, fault := .none } (leaveFault s) :=
  { h with
    olen_eq := rfl
    rp_eq := rfl
    phase_eq := rfl
    fault_eq := rfl
    alg_eq := by simp
    holds := fun _ => .of_zero rfl rfl rfl (by simp) (by simp) }

/-- An operation that does nothing. -/
theorem Answers.nothing {f : State → Out} (h : ∀ s, Shows v s → f s = .next s) : Answers v f :=
  ⟨v, [], fun s hs => ⟨s, h s hs, hs, (List.append_nil _).symm⟩⟩

/-- An operation that raises a fault. -/
theorem Answers.raise {f : State → Out} (c : FaultCode) (h : ∀ s, Shows v s → f s = .next (raiseFault c s)) :
    Answers v f :=
  ⟨v.raise c, [], fun s hs => ⟨_, h s hs, hs.raiseFault c, (List.append_nil _).symm⟩⟩

/-- The legality test reads the phase only, so a command answers where its rule does in its legal phase. -/
theorem Answers.inPhase {legal : Phase} {rule : State → Out} (h : v.phase = legal → Answers v rule) :
    Answers v (fun s => inPhase legal s (rule s)) := by
  by_cases hf : v.phase = .fault
  · exact .nothing fun s hs => inPhase_fault legal _ (hs.phase_eq.trans hf)
  by_cases hl : v.phase = legal
  · obtain ⟨v', out, hrule⟩ := h hl
    refine ⟨v', out, fun s hs => ?_⟩
    obtain ⟨t, ht, hview⟩ := hrule s hs
    exact ⟨t, (inPhase_legal _ (hs.phase_eq.trans hl) (hl ▸ hf)).trans ht, hview⟩
  · exact .raise .proto fun s hs => inPhase_proto _ (hs.phase_eq ▸ hl) (hs.phase_eq ▸ hf)

/-- The capacity test of PUSH passes exactly where the words with the new one fit (70_reset_and_hazards.md R237). -/
theorem Holds.codesFit_iff_fits {t : List Word} (h : Holds t s) (hp : s.phase = .load) (w : Word) :
    codesFit s (scan (delta s.prev w)) = true ↔ FitsStreams s.cfg (t ++ [w]) := by
  rw [codesFit_iff, FitsStreams, normalStream_concat, exceptionalStream_concat, ← h.prev_eq (.inl hp),
    List.length_append, List.length_append, ← h.ncnt_eq, ← h.xcnt_eq]

/-- PUSH goes by the words alone: whether its codes fit, and what they are (44_commands.md R178). -/
theorem answers_pushWord (w : Word) (hp : v.phase = .load) : Answers v (fun s => .next (pushWord w s)) := by
  have hfit : ∀ s, Shows v s →
      (codesFit s (scan (delta s.prev w)) = true ↔ FitsStreams v.cfg (v.words ++ [w])) := fun s hs => by
    rw [(hs.holds (by simp [hp])).codesFit_iff_fits (hs.phase_eq.trans hp) w, hs.cfg_eq]
  by_cases hc : FitsStreams v.cfg (v.words ++ [w])
  · refine ⟨{ v with words := v.words ++ [w] }, [], fun s hs => ?_⟩
    have hcs := (hfit s hs).2 hc
    have hwords := (hs.holds (by simp [hp])).appendWord w (hs.phase_eq.trans hp) hcs
    refine ⟨_, congrArg _ (if_pos hcs), ?_⟩
    rw [appendWord_eq] at hwords ⊢
    exact ⟨{ hs with holds := fun _ => hwords }, (List.append_nil _).symm⟩
  · exact .raise .resource fun s hs => by rw [pushWord, if_neg (mt (hfit s hs).1 hc)]

/-- FINISH goes by the identifier and the words alone: whether the buffer fits, and its bytes (44_commands.md R180). -/
theorem answers_buildBuffer (hp : v.phase = .load) : Answers v buildBuffer := by
  have hlen : ∀ s, Shows v s →
      bufferBytes s.ncnt s.xcnt = (encodeBuffer v.cfg.cntSel v.alg v.words).length := fun s hs =>
    (hs.holds (by simp [hp])).bufferBytes_eq _ _
  rcases Nat.lt_or_ge v.cfg.ocap (encodeBuffer v.cfg.cntSel v.alg v.words).length with hc | hfit
  · exact .raise .resource fun s hs => buildBuffer_overflow (by rwa [hlen s hs, hs.cfg_eq])
  · refine ⟨{ v with olen := (encodeBuffer v.cfg.cntSel v.alg v.words).length, rp := 0, phase := .drain }, [],
      fun s hs => ?_⟩
    have hwords := hs.holds (by simp [hp])
    obtain ⟨o, hk⟩ := hwords.pack_done (by rwa [hlen s hs, hs.cfg_eq])
    exact ⟨_, buildBuffer_done hk,
      { hs with
        olen_eq := hlen s hs
        rp_eq := rfl
        phase_eq := rfl
        alg_eq := fun _ => hs.alg_eq (.inl hp)
        holds := fun _ => hwords.built (hs.phase_eq.trans hp) hk }, (List.append_nil _).symm⟩

/-- POP delivers the byte at `rp` of the encoded buffer, and nothing outside `DRAIN` (44_commands.md R182). -/
theorem answers_execPop : Answers v execPop := by
  by_cases hp : v.phase = .drain
  · refine ⟨{ v with rp := v.rp + 1, phase := if v.rp + 1 = v.olen then .idle else .drain },
      [⟨(encodeBuffer v.cfg.cntSel v.alg v.words).getD v.rp 0, decide (v.rp + 1 = v.olen)⟩], fun s hs => ?_⟩
    have hps := hs.phase_eq.trans hp
    have hwords := hs.holds (by simp [hp])
    have halg := hs.alg_eq (.inr hp)
    have hread := hwords.read_rp hps
    have hlast : atLast s = decide (v.rp + 1 = v.olen) := by rw [atLast, hs.rp_eq, hs.olen_eq]
    refine ⟨_, by rw [execPop, outValid, decide_eq_true hps, if_pos rfl, hread], ?_, ?_⟩
    · exact
        { hs with
          rp_eq := by rw [deliver_rp, hs.rp_eq]
          phase_eq := by simp [hlast, hps]
          alg_eq := fun _ => halg
          holds := fun _ => hwords.deliver _ hps }
    · rw [deliver_delivered, hlast, hs.cfg_eq, halg, hs.rp_eq]
  · exact .nothing fun s hs => by
      rw [execPop, outValid, decide_eq_false (hs.phase_eq ▸ hp), if_neg Bool.false_ne_true]

/-- Every host operation goes by the view alone. -/
theorem answers_exec (v : View) {i : Instr} (hi : hostOperation i = true) : Answers v (exec i) := by
  cases i with
  | start a =>
    exact .inPhase fun _ => ⟨_, [], fun s hs =>
      ⟨_, rfl, shows_openTransaction a hs.cfg_eq hs.fault_eq, (List.append_nil _).symm⟩⟩
  | push w => exact .inPhase (answers_pushWord w)
  | finish => exact .inPhase answers_buildBuffer
  | clear => exact ⟨_, [], fun s hs => ⟨_, rfl, hs.leaveFault, (List.append_nil _).symm⟩⟩
  | pop => exact answers_execPop
  | _ => simp [hostOperation] at hi

/-- So does every sequence of them. -/
theorem answers_execAll {l : List Instr} (hl : ∀ i ∈ l, hostOperation i = true) (v : View) :
    Answers v (execAll l) := by
  induction l generalizing v with
  | nil => exact .nothing fun _ _ => rfl
  | cons i l ih =>
    rw [List.forall_mem_cons] at hl
    obtain ⟨v₁, out₁, hi⟩ := answers_exec v hl.1
    obtain ⟨v₂, out₂, hrest⟩ := ih hl.2 v₁
    refine ⟨v₂, out₁ ++ out₂, fun s hs => ?_⟩
    obtain ⟨t, ht, hv₁, hd₁⟩ := hi s hs
    obtain ⟨u, hu, hv₂, hd₂⟩ := hrest t hv₁
    exact ⟨u, (execAll_cons_next l ht).trans hu, hv₂, by rw [hd₂, hd₁, List.append_assoc]⟩

/-- States of one view look the same to the host (10_state.md R34, R38). -/
theorem Shows.obs_eq {s₁ s₂ : State} (h₁ : Shows v s₁) (h₂ : Shows v s₂) : obs s₁ = obs s₂ := by
  have hoffered : v.phase = .drain → s₁.obuf.read s₁.rp = s₂.obuf.read s₂.rp := fun hp => by
    rw [(h₁.holds (by simp [hp])).read_rp (h₁.phase_eq.trans hp),
      (h₂.holds (by simp [hp])).read_rp (h₂.phase_eq.trans hp), h₁.alg_eq (.inr hp), h₂.alg_eq (.inr hp),
      h₁.cfg_eq, h₂.cfg_eq, h₁.rp_eq, h₂.rp_eq]
  have hlast : atLast s₁ = atLast s₂ := by rw [atLast, atLast, h₁.rp_eq, h₂.rp_eq, h₁.olen_eq, h₂.olen_eq]
  simp only [obs, stCount, stNcnt, stXcnt, stOlen, outValid, h₁.phase_eq, h₂.phase_eq, h₁.fault_eq, h₂.fault_eq,
    h₁.olen_eq, h₂.olen_eq, hlast]
  by_cases hf : v.phase = .fault
  · simp [hf]
  have w₁ := h₁.holds hf
  have w₂ := h₂.holds hf
  rw [w₁.count_eq, w₂.count_eq, w₁.ncnt_eq, w₂.ncnt_eq, w₁.xcnt_eq, w₂.xcnt_eq]
  simp only [if_neg hf]
  by_cases hd : v.phase = .drain
  · rw [hoffered hd]
  · simp [hd]

/-- Any sequence of host operations, from two states of one view. -/
theorem Shows.sameRun {s₁ s₂ : State} {l : List Instr} (hl : ∀ i ∈ l, hostOperation i = true) (h₁ : Shows v s₁)
    (h₂ : Shows v s₂) : SameRun l s₁ s₂ := by
  obtain ⟨v', out, h⟩ := answers_execAll hl v
  obtain ⟨t₁, ht₁, hv₁, hd₁⟩ := h s₁ h₁
  obtain ⟨t₂, ht₂, hv₂, hd₂⟩ := h s₂ h₂
  exact ⟨t₁, t₂, out, ht₁, ht₂, hv₁.obs_eq hv₂, hd₁, hd₂⟩

/-- Settles O59: after START the two blocks have one view, whatever their memories and registers held before. -/
theorem transactionsIndependent : Obligations.TransactionsIndependent := by
  intro s₁ s₂ a l hcfg hp₁ hp₂ hf₁ hf₂ hl
  have hstart : ∀ s : State, s.phase = .idle → exec (.start a) s = .next (openTransaction a s) := fun s hp =>
    inPhase_legal _ hp (by decide)
  rw [SameRun, execAll_cons_next l (hstart s₁ hp₁), execAll_cons_next l (hstart s₂ hp₂)]
  exact (shows_openTransaction a hcfg hf₁).sameRun hl (shows_openTransaction a rfl hf₂)

end Sys2Proof.Safety
end

section
/-! SUPPORT. The transitions of `phase` and the recording of faults, by everything an operation can do (10_state.md R32,
R33). -/

namespace Sys2Proof.Machine

open Sys2Proof.Safety

variable {i : Instr} {s t : State}

/-- An emission row leaves the phase as it is. -/
theorem nextPhase_of_emissionRow (s : State) (h : emissionRow i = true) : nextPhase s i = s.phase := by
  cases i with
  | start | push | finish | clear | pop | xcodeNever | header => simp [emissionRow] at h
  | _ => rfl

/-- The table of 10_state.md R32 tests the room for a PUSH as the block does. -/
theorem nextPhase_push {w : Word} (hp : s.phase = .load) :
    nextPhase s (.push w) = if codesFit s (scan (delta s.prev w)) = true then .load else .fault := by
  simp only [nextPhase, hp, true_and, codesFit_iff, delta]

/-- The new phase is the one the table of 10_state.md R32 gives. -/
theorem Did.phase_eq (h : Did i s t) : t.phase = nextPhase s i := by
  cases h with
  | nothing hp ht =>
    rw [ht]
    rcases hp with ⟨hf, a, rfl⟩ | ⟨hf, w, rfl⟩ | ⟨hf, rfl⟩ | ⟨hd, rfl⟩
    · simp [nextPhase, hf]
    · simp [nextPhase, hf]
    · simp [nextPhase, hf]
    · simp [nextPhase, hd]
  | opened a hi hp ht => simp [ht, hi, nextPhase, hp]
  | pushed w hi hp hc ht => rw [ht, hi, nextPhase_push hp, if_pos hc, appendWord_eq, ← hp]
  | built o hi hp hk ht =>
    obtain ⟨hfit, -, -⟩ := pack_done s o hk
    simp [ht, hi, nextPhase, hp, hfit]
  | cleared hi ht => rw [ht, hi, nextPhase, leaveFault_phase]
  | delivered b hi hp hb ht => simp [ht, hi, nextPhase, hp, atLast]
  | lacked hp hc ht =>
    rw [ht, raiseFault_phase]
    rcases hc with ⟨w, rfl, hc⟩ | ⟨rfl, hc⟩
    · rw [nextPhase_push hp, hc, if_neg Bool.false_ne_true]
    · simp [nextPhase, hc]
  | misplaced hp hi ht =>
    rw [ht, raiseFault_phase]
    rcases hi with ⟨hp, a, rfl⟩ | ⟨hp, ⟨w, rfl⟩ | rfl⟩
    · simp [nextPhase, hp]
    · simp [nextPhase, hp]
    · simp [nextPhase, hp]
  | headed a c0 c1 c2 hi ht => rw [ht, hi, nextPhase]
  | emitted f hi ht => rw [ht, nextPhase_of_emissionRow s hi, onScan_phase]

/-- What an operation does with the recorded fault: it keeps it, with whether the phase is `FAULT`, or clears it, or
raises one (60_exceptions.md R202, R204, R209). -/
theorem Did.fault_cases (h : Did i s t) :
    (t.fault = s.fault ∧ (t.phase = .fault ↔ s.phase = .fault)) ∨
    (i = .clear ∧ t = leaveFault s) ∨
    (s.phase = .load ∧ (∀ a, i ≠ .start a) ∧ t = raiseFault .resource s) ∨
    (s.phase ≠ .fault ∧ (s.phase ≠ .load ∨ ∃ a, i = .start a) ∧ t = raiseFault .proto s) := by
  cases h with
  | nothing _ ht => exact .inl (ht ▸ ⟨rfl, Iff.rfl⟩)
  | opened a _ hp ht => exact .inl (by simp [ht, hp])
  | pushed w _ hp _ ht => exact .inl (by simp [ht, appendWord_eq])
  | built o _ hp _ ht => exact .inl (by simp [ht, hp])
  | cleared hi ht => exact .inr (.inl ⟨hi, ht⟩)
  | delivered b _ hp _ ht => exact .inl (by cases hl : atLast s <;> simp [ht, hp, hl])
  | lacked hp hc ht =>
    refine .inr (.inr (.inl ⟨hp, fun a ha => ?_, ht⟩))
    rcases hc with ⟨w, hi, -⟩ | ⟨hi, -⟩ <;> cases ha.symm.trans hi
  | misplaced hp hi ht =>
    refine .inr (.inr (.inr ⟨hp, ?_, ht⟩))
    rcases hi with ⟨-, hi⟩ | ⟨hl, -⟩
    · exact .inr hi
    · exact .inl hl
  | headed _ _ _ _ _ ht => exact .inl (by simp [ht])
  | emitted f _ ht => exact .inl (by simp [ht])

/-- The two ways into `FAULT` (60_exceptions.md R202, R204). -/
theorem Did.enters_fault (h : Did i s t) (hs : s.phase ≠ .fault) (ht : t.phase = .fault) :
    (s.phase = .load ∧ (∀ a, i ≠ .start a) ∧ t = raiseFault .resource s) ∨
    ((s.phase ≠ .load ∨ ∃ a, i = .start a) ∧ t = raiseFault .proto s) := by
  rcases h.fault_cases with ⟨-, hiff⟩ | ⟨-, rfl⟩ | hres | ⟨-, hproto⟩
  · exact absurd (hiff.1 ht) hs
  · simp at ht
  · exact .inl hres
  · exact .inr hproto

/-- Raising a fault leaves one recorded (10_state.md R33). -/
theorem raiseFault_fault_ne_none {c : FaultCode} (hc : c ≠ .none) (s : State) : (raiseFault c s).fault ≠ .none := by
  rw [raiseFault_fault]
  split
  · exact hc
  · assumption

/-- An operation keeps that a fault is recorded exactly in `FAULT` (10_state.md R33). -/
theorem Did.fault_iff (h : Did i s t) (hs : s.fault ≠ .none ↔ s.phase = .fault) :
    t.fault ≠ .none ↔ t.phase = .fault := by
  rcases h.fault_cases with ⟨hf, hp⟩ | ⟨-, rfl⟩ | ⟨-, -, rfl⟩ | ⟨-, -, rfl⟩
  · rw [hf, hp, hs]
  · simp
  · exact iff_of_true (raiseFault_fault_ne_none (by decide) s) rfl
  · exact iff_of_true (raiseFault_fault_ne_none (by decide) s) rfl

end Sys2Proof.Machine
end

section
/-! SUPPORT. The statements about `phase` and `fault`: their transitions, their reset values and what the status outputs
show of the state (10_state.md R32 to R34, R41). -/

namespace Sys2Proof.Safety

open Sys2Proof.Machine

/-- Settles O40: the phase by what the operation did, and the code by the way into `FAULT`. -/
theorem phaseTransitions : Obligations.PhaseTransitions := by
  refine ⟨fun s t i h => (exec_did h).phase_eq, fun s t i h hf hs ht => ?_, fun s => rfl⟩
  rcases (exec_did h).enters_fault hs ht with ⟨hp, hi, rfl⟩ | ⟨hw, rfl⟩
  · exact ⟨fun _ _ => by simp [hf], fun hw => absurd hw (by simp [hp, hi])⟩
  · exact ⟨fun hp hi => absurd hw (by simp [hp, hi]), fun _ => by simp [hf]⟩

/-- Settles O46: by the three things a step can do. -/
theorem faultExactlyInFaultPhase : Obligations.FaultExactlyInFaultPhase := by
  intro s t hs hstep
  rcases step_did hstep with ⟨-, rfl⟩ | ⟨rest, -, rfl⟩ | ⟨f, rest, i, -, -, hd⟩
  · exact hs
  · simp
  · exact hd.fault_iff hs

/-- START after a reset is START alone, where no fault is recorded (10_state.md R41). -/
theorem openTransaction_resetRegisters (a : Byte) {s : State} (hf : s.fault = .none) :
    openTransaction a (resetRegisters s) = openTransaction a s := by
  simp only [openTransaction, resetRegisters, hf]

/-- Settles O9: the values of `State.reset` are written in it, and START writes every register a reset does but the
fault. -/
theorem resetValues : Obligations.ResetValues := by
  refine ⟨⟨rfl, rfl, rfl, rfl, rfl, rfl, rfl, rfl, rfl⟩, ⟨rfl, rfl, rfl, rfl, rfl, rfl, rfl, rfl⟩, ?_⟩
  intro s a hp hf
  calc execStart a (resetRegisters s)
      = .next (openTransaction a (resetRegisters s)) := inPhase_legal _ rfl (by decide)
    _ = .next (openTransaction a s) := by rw [openTransaction_resetRegisters a hf]
    _ = execStart a s := (inPhase_legal _ hp (by decide)).symm

/-- Outside `FAULT` the counters' outputs show the registers (10_state.md R34). -/
theorem status_of_not_fault {s : State} (hp : s.phase ≠ .fault) :
    stCount s = s.count ∧ stNcnt s = s.ncnt ∧ stXcnt s = s.xcnt ∧ stOlen s = s.olen :=
  ⟨if_neg hp, if_neg hp, if_neg hp, if_neg hp⟩

/-- Settles O48: the outputs by whether the phase is `FAULT`, which a drain does not enter. -/
theorem statusOutputs : Obligations.StatusOutputs := by
  refine ⟨fun s => ⟨rfl, rfl, status_of_not_fault, fun hp => ⟨if_pos hp, if_pos hp, if_pos hp, if_pos hp⟩⟩,
    fun s t hp h => ?_⟩
  have h : execPop s = .next t := h
  rcases execPop_cases s with ⟨hn, -⟩ | ⟨-, b, -, hx⟩ | ⟨-, -, hx⟩
  · exact absurd hp hn
  · cases hx.symm.trans h
    have ht : (deliver b s).phase ≠ .fault := by rw [deliver_phase, hp]; split <;> simp
    obtain ⟨c₁, n₁, x₁, o₁⟩ := status_of_not_fault (s := s) (by simp [hp])
    obtain ⟨c₂, n₂, x₂, o₂⟩ := status_of_not_fault ht
    rw [c₁, n₁, x₁, o₁, c₂, n₂, x₂, o₂]
    exact ⟨rfl, rfl, rfl, rfl⟩
  · cases hx.symm.trans h

end Sys2Proof.Safety
end

section
/-! SUPPORT. What each operation leaves as it was (10_state.md R40). -/

namespace Sys2Proof.Machine

/-- HEADER changes no byte but its four (42_pack.md R132, R141). -/
theorem headerBytes_frame (sel : CntSel) (alg : Byte) (count : BitVec 64) (o : Memory 8) {a : Nat} (ha : 4 ≤ a) :
    (headerBytes sel alg count o).read a = o.read a := by
  rw [headerBytes_read, if_neg (by omega), if_neg (by omega), if_neg (by omega), if_neg (by omega)]

/-- PACK changes no byte past the buffer (42_pack.md R141). -/
theorem pack_done_frame {s : State} {o : Memory 8} (hk : pack s = .done o) {a : Nat}
    (ha : bufferBytes s.ncnt s.xcnt ≤ a) : o.read a = s.obuf.read a := by
  obtain ⟨hfit, hn, hx⟩ := pack_done s o hk
  obtain ⟨o', ho', -, hbits⟩ := pack_spec s (fun i => (s.nmem.read i).getD 0) (fun i => (s.xmem.read i).getD 0) hfit
    (fun i hi => (Option.getD_of_ne_none (Option.isSome_iff_ne_none.1 (hn i hi)) 0).symm)
    (fun i hi => (Option.getD_of_ne_none (Option.isSome_iff_ne_none.1 (hx i hi)) 0).symm)
  rw [hk] at ho'
  cases ho'
  have bn := normalBytes_bounds s.ncnt
  have bx := exceptionalBytes_bounds s.xcnt
  unfold bufferBytes at ha
  calc o.read a
      = (headerBytes s.cfg.cntSel s.alg s.count (s.obuf.fill 0#8 (bufferBytes s.ncnt s.xcnt))).read a :=
        read_of_absBit a fun i hi => by rw [hbits, if_neg (by omega), if_neg (by omega)]
    _ = (s.obuf.fill 0#8 (bufferBytes s.ncnt s.xcnt)).read a := headerBytes_frame _ _ _ _ (by omega)
    _ = s.obuf.read a := by rw [Memory.read_fill, if_neg (by unfold bufferBytes; omega)]

end Sys2Proof.Machine

namespace Sys2Proof.Safety

open Sys2Proof.Machine

/-- An operation that leaves the three memories alone leaves every entry alone. -/
theorem memSame_of_eq {s t : State} (hn : t.nmem = s.nmem) (hx : t.xmem = s.xmem) (ho : t.obuf = s.obuf) :
    MemSame s t := by
  simp only [MemSame, hn, hx, ho, implies_true, and_self]

/-- An emission row acts on the scan in flight only (log entry 8). -/
theorem exec_of_emissionRow {i : Instr} {s t : State} (hi : emissionRow i = true) (h : exec i s = .next t) :
    ∃ f, t = onScan f s := by
  cases i with
  | start | push | finish | clear | pop | xcodeNever | header => simp [emissionRow] at hi
  | _ => cases h; exact ⟨_, rfl⟩

/-- Settles O50: what each of these operations did is an update of registers only. -/
theorem frameOfRowsThatStoreNothing : Obligations.FrameOfRowsThatStoreNothing := by
  intro s t
  refine ⟨fun a hp h => ?_, fun h => ?_, fun h => ?_, fun i hi h => ?_, fun i hs h ht => ?_⟩
  · have hx : execStart a s = .next (openTransaction a s) := inPhase_legal _ hp (by decide)
    cases hx.symm.trans h
    exact ⟨memSame_of_eq rfl rfl rfl, rfl, rfl, rfl, rfl, rfl⟩
  · cases h
    exact ⟨memSame_of_eq rfl rfl rfl, rfl, rfl, rfl, rfl, rfl, rfl⟩
  · rcases execPop_cases s with ⟨-, hx⟩ | ⟨-, b, -, hx⟩ | ⟨-, -, hx⟩
    · cases hx.symm.trans h
      exact ⟨memSame_of_eq rfl rfl rfl, rfl, rfl, rfl, rfl, rfl, rfl, rfl, rfl, rfl, rfl, rfl⟩
    · cases hx.symm.trans h
      exact ⟨memSame_of_eq rfl rfl rfl, rfl, rfl, rfl, rfl, rfl, rfl, rfl, rfl, rfl, rfl, rfl⟩
    · cases hx.symm.trans h
  · obtain ⟨f, rfl⟩ := exec_of_emissionRow hi h
    exact ⟨memSame_of_eq rfl rfl rfl, rfl⟩
  · rcases (exec_did h).enters_fault hs ht with ⟨-, -, rfl⟩ | ⟨-, rfl⟩
    · exact ⟨memSame_of_eq rfl rfl rfl, rfl⟩
    · exact ⟨memSame_of_eq rfl rfl rfl, rfl⟩

/-- Settles O51: a PUSH in `LOAD` that does not fault appended the codes of its word. -/
theorem frameOfPush : Obligations.FrameOfPush := by
  intro w s t hp h ht
  rcases execPush_cases w s with ⟨hf, -⟩ | ⟨-, -, hx⟩ | ⟨-, -, hx⟩ | ⟨-, hl, -⟩
  · exact absurd (hp.symm.trans hf) (by decide)
  · cases hx.symm.trans h
    rw [appendWord_eq]
    exact ⟨fun a ha => by rw [nAppends_read, if_neg (by omega)], fun a ha => by rw [xAppends_read, if_neg (by omega)],
      fun _ => rfl, rfl, rfl, rfl, rfl, rfl, rfl, rfl, rfl, rfl⟩
  · cases hx.symm.trans h
    exact absurd rfl ht
  · exact absurd hp hl

/-- Settles O52: a FINISH in `LOAD` that does not fault wrote what PACK left, and HEADER its four bytes. -/
theorem frameOfFinishAndHeader : Obligations.FrameOfFinishAndHeader := by
  refine ⟨fun s t hp h ht => ?_, fun a c0 c1 c2 s t h => ?_⟩
  · rcases execFinish_cases s with ⟨hf, -⟩ | ⟨-, o, hk, hx⟩ | ⟨-, -, hx⟩ | ⟨-, f, -, hx⟩ | ⟨-, hl, -⟩
    · exact absurd (hp.symm.trans hf) (by decide)
    · cases hx.symm.trans h
      exact ⟨fun a ha => pack_done_frame hk ha, fun _ => rfl, fun _ => rfl, rfl, rfl, rfl, rfl, rfl, rfl, rfl, rfl,
        rfl, rfl, rfl⟩
    · cases hx.symm.trans h
      exact absurd rfl ht
    · cases hx.symm.trans h
    · exact absurd hp hl
  · cases h
    exact ⟨fun k hk => headerBytes_frame _ _ _ _ hk, rfl⟩

end Sys2Proof.Safety
end

section
/-! SUPPORT. How many codes of each kind a word and a transaction give (41_symbol.md R116, R122), and how many a memory
holds. -/

namespace Sys2Proof.Machine

open Sys2Proof.Safety

/-- The normal codes of SCAN: one for each gap, then the terminator (41_symbol.md R110 to R113). -/
theorem scan_fst (d : Word) :
    (scan d).1 = (gaps d).map (fun g => if g < 7 then normalOf g else escCode) ++ [termCode] := by
  obtain ⟨-, -, -, hns, -⟩ := visits_spec 32 (Scan.start d)
  rw [gaps, setBits_eq_positionsFrom]
  exact congrArg (· ++ [termCode]) hns

theorem scan_fst_length (d : Word) : (scan d).1.length = popcount d + 1 := by
  rw [scan_fst, List.length_append, List.length_map, gaps, gapsFrom_length]
  rfl

theorem scan_snd_length (d : Word) : (scan d).2.length = bigGaps d := by
  rw [scan_snd, List.length_map, bigGaps]

/-- The code of a gap is `ESC` exactly for the gaps of 7 or more. -/
theorem normalCode_eq_esc (g : Nat) : (if g < 7 then normalOf g else escCode) = 7#3 ↔ 7 ≤ g := by
  by_cases h : g < 7
  · rw [if_pos h, normalOf]
    interval_cases g <;> decide
  · rw [if_neg h]
    exact iff_of_true rfl (by omega)

/-- The code of a gap of at least 1 is no terminator (41_symbol.md R116). -/
theorem normalCode_ne_term {g : Nat} (hg : 1 ≤ g) : (if g < 7 then normalOf g else escCode) ≠ 0#3 := by
  by_cases h : g < 7
  · rw [if_pos h, normalOf]
    interval_cases g <;> decide
  · rw [if_neg h]
    decide

/-- Every escape has its exceptional code (41_symbol.md R116). -/
theorem scan_count_esc (d : Word) : (scan d).1.count 7#3 = bigGaps d := by
  have h0 : ([termCode] : List NCode).count 7#3 = 0 := by decide
  rw [scan_fst, List.count_append, h0, Nat.add_zero, List.count, List.countP_map, List.countP_eq_length_filter, bigGaps]
  refine congrArg List.length (List.filter_congr fun g _ => ?_)
  simpa [beq_eq_decide] using normalCode_eq_esc g

/-- A word has one terminator (41_symbol.md R116). -/
theorem scan_count_term (d : Word) : (scan d).1.count 0#3 = 1 := by
  have h0 : 0#3 ∉ (gaps d).map (fun g => if g < 7 then normalOf g else escCode) := fun hm => by
    obtain ⟨g, hg, he⟩ := List.mem_map.1 hm
    exact normalCode_ne_term (gaps_bounds hg).1 he
  rw [scan_fst, List.count_append, List.count_eq_zero.2 h0]
  rfl

theorem diffs_length (t : List Word) : (diffs t).length = t.length := by
  have h : ∀ (t : List Word) (p : Word), (diffsFrom p t).length = t.length := by
    intro t
    induction t with
    | nil => exact fun _ => rfl
    | cons w t ih => exact fun p => congrArg (· + 1) (ih w)
  exact h t 0

/-- The length of the normal stream (41_symbol.md R122). -/
theorem normalStream_length (t : List Word) :
    (normalStream t).length = t.length + ((diffs t).map popcount).sum := by
  rw [normalStream, List.length_flatMap, ← diffs_length t]
  simp only [scan_fst_length]
  rw [List.sum_map_add]
  simp [Nat.add_comm]

/-- The length of the exceptional stream (41_symbol.md R122). -/
theorem exceptionalStream_length (t : List Word) :
    (exceptionalStream t).length = ((diffs t).map bigGaps).sum := by
  simp only [exceptionalStream, List.length_flatMap, scan_snd_length]

/-- One terminator for each word (41_symbol.md R122). -/
theorem normalStream_count_term (t : List Word) : (normalStream t).count 0#3 = t.length := by
  rw [normalStream, List.count_flatMap, ← diffs_length t]
  simp [Function.comp_def, scan_count_term]

/-- One escape for each exceptional code (41_symbol.md R122). -/
theorem normalStream_count_esc (t : List Word) :
    (normalStream t).count 7#3 = (exceptionalStream t).length := by
  rw [normalStream, List.count_flatMap, exceptionalStream_length]
  simp only [Function.comp_def, scan_count_esc]

theorem exceptionalStream_le {t : List Word} {x : XCode} (h : x ∈ exceptionalStream t) : x.toNat ≤ 25 := by
  obtain ⟨d, -, hx⟩ := List.mem_flatMap.1 h
  exact (scanBounds d).2.2 x hx

/-- The places of a memory that read as `c`, among those of a list it holds, are as many as the list has of `c`. -/
theorem memHolds_count {w : Nat} {m : Memory w} {l : List (BitVec w)} (h : MemHolds m l) (c : BitVec w) :
    ((List.range l.length).filter (fun k => decide (m.read k = some c))).length = l.count c := by
  have hl : l = (List.range l.length).map (fun k => l.getD k 0) := by
    refine List.ext_getElem (by simp) fun k h₁ h₂ => ?_
    simp [h₁]
  conv_rhs => rw [hl]
  rw [List.count, List.countP_map, List.countP_eq_length_filter]
  refine congrArg List.length (List.filter_congr fun k hk => ?_)
  rw [memHolds_read_getD h (List.mem_range.1 hk)]
  simp [beq_eq_decide]

end Sys2Proof.Machine

namespace Sys2Proof.Safety

open Sys2Proof.Machine

/-- Settles O53: the counters are the lengths of the two streams, and NMEM and XMEM hold their codes. -/
theorem countersMatchStreams : Obligations.CountersMatchStreams := by
  intro s t h
  obtain ⟨hncap, hxcap⟩ := h.fits
  have hN := normalStream_length t
  have hX := exceptionalStream_length t
  have hesc := normalStream_count_esc t
  have hle : (normalStream t).count 7#3 ≤ (normalStream t).length := List.count_le_length
  rw [h.ncnt_eq, h.xcnt_eq]
  refine ⟨hN, hX, (memHolds_count h.nmem _).trans hesc, (memHolds_count h.nmem _).trans (normalStream_count_term t),
    by omega, hncap, hxcap, by omega, fun k hk => ?_⟩
  exact ⟨_, (h.xmem k hk).trans (List.getElem?_eq_getElem hk), exceptionalStream_le (List.getElem_mem hk)⟩

/-- Settles O54: at reset the memories list nothing and the counters are 0. -/
theorem resetMeetsInvariant : Obligations.ResetMeetsInvariant where
  cfg_ok := by decide
  nmem_wf := rfl
  xmem_wf := rfl
  obuf_wf := rfl
  nmem_in := rfl
  xmem_in := rfl
  obuf_in := rfl
  faulted := by decide
  no_scan := rfl
  pointers _ := ⟨Nat.le_refl _, Nat.zero_le _⟩
  words _ := ⟨[], .of_zero rfl rfl rfl (by decide) (by decide)⟩

end Sys2Proof.Safety
end

section
/-! SUPPORT. Decode and encode undo each other (30_encoding.md R81 to R88): what each format's decoder answers, and what
a word that decodes is. -/

namespace Sys2Proof

theorem decodeCmd_start {w : CmdWord} (h : cmdOp w = 0b00#2) : decodeCmd w = .start (startOperand (cmdData w)) := by
  simp [decodeCmd, h]

theorem decodeCmd_push {w : CmdWord} (h : cmdOp w = 0b01#2) : decodeCmd w = .push (pushOperand (cmdData w)) := by
  simp [decodeCmd, h]

theorem decodeCmd_finish {w : CmdWord} (h : cmdOp w = 0b10#2) : decodeCmd w = .finish := by
  simp [decodeCmd, h]

theorem decodeCmd_clear {w : CmdWord} (h : cmdOp w = 0b11#2) : decodeCmd w = .clear := by
  simp [decodeCmd, h]

theorem decodeXsym_xcode {v : XCode} (h : v.toNat ≤ 25) : decodeXsym v = .xcode v := if_pos h

theorem decodeXsym_xcodeNever {v : XCode} (h : 26 ≤ v.toNat) : decodeXsym v = .xcodeNever v := if_neg (by omega)

/-- The operand of START is the low byte of its data, whatever stands above it (30_encoding.md R83, R84). -/
theorem startOperand_append (x : BitVec 24) (a : Byte) : startOperand (x ++ a) = a := by
  refine BitVec.eq_of_getLsbD_eq fun i hi => ?_
  rw [startOperand, BitVec.getLsbD_extractLsb', BitVec.getLsbD_append, if_pos (by omega)]
  simp [hi]

/-- Settles O1: each row by the decoder of its format, on the fields its word was put together from. -/
theorem decodeOfEncode : Obligations.DecodeOfEncode := by
  intro i hi
  cases i with
  | start a =>
    rw [encode, decode_ofCmd, decodeCmd_start (cmdOp_cmdWord _ _), cmdData_cmdWord, startOperand_append]
  | push w =>
    rw [encode, decode_ofCmd, decodeCmd_push (cmdOp_cmdWord _ _), cmdData_cmdWord, pushOperand]
  | finish => rw [encode, decode_ofCmd, decodeCmd_finish (cmdOp_cmdWord _ _)]
  | clear => rw [encode, decode_ofCmd, decodeCmd_clear (cmdOp_cmdWord _ _)]
  | term | gap1 | gap2 | gap3 | gap4 | gap5 | gap6 | esc => exact decode_ofNsym _
  | xcode v => rw [encode, decode_ofXsym, decodeXsym_xcode (of_decide_eq_true hi)]
  | xcodeNever v => rw [encode, decode_ofXsym, decodeXsym_xcodeNever (of_decide_eq_true hi)]
  | header a c0 c1 c2 => rw [encode, decode_ofHdr, decodeHdr_hdrWord]
  | pop => rfl

/-- Where the check of a format's width passes, the number is that of a word of the format. -/
theorem bits_of_width_check {k n : Nat} {i j : Instr}
    (h : (if n < 2 ^ k then .ok j else .error .strayBits : Except Reject Instr) = .ok i) :
    n = (BitVec.ofNat k n).toNat ∧ i = j := by
  split at h
  next hlt =>
    cases h
    exact ⟨(BitVec.toNat_ofNat n k ▸ Nat.mod_eq_of_lt hlt).symm, rfl⟩
  next => cases h

/-- A word that decodes is a word of its format's width, and the format's decoder answers (30_encoding.md R80). -/
theorem decode_ok_cases {f : FWord} {i : Instr} (h : decode f = .ok i) :
    (∃ w, f = .ofCmd w ∧ i = decodeCmd w) ∨ (∃ c, f = .ofNsym c ∧ i = decodeNsym c) ∨
    (∃ v, f = .ofXsym v ∧ i = decodeXsym v) ∨ (∃ w, f = .ofHdr w ∧ i = decodeHdr w) ∨
    (f = encode .pop ∧ i = .pop) := by
  obtain ⟨fmt, n⟩ := f
  cases fmt with
  | cmd =>
    obtain ⟨hn, hi⟩ := bits_of_width_check h
    exact .inl ⟨_, congrArg _ hn, hi⟩
  | nsym =>
    obtain ⟨hn, hi⟩ := bits_of_width_check h
    exact .inr (.inl ⟨_, congrArg _ hn, hi⟩)
  | xsym =>
    obtain ⟨hn, hi⟩ := bits_of_width_check h
    exact .inr (.inr (.inl ⟨_, congrArg _ hn, hi⟩))
  | hdr =>
    obtain ⟨hn, hi⟩ := bits_of_width_check h
    exact .inr (.inr (.inr (.inl ⟨_, congrArg _ hn, hi⟩)))
  | pop =>
    simp only [decode] at h
    split at h
    next hn =>
      cases h
      exact .inr (.inr (.inr (.inr ⟨congrArg _ hn, rfl⟩)))
    next => cases h
  | unlisted => cases h

theorem decodeCmd_wf (w : CmdWord) : WellFormed (decodeCmd w) := by
  unfold decodeCmd
  repeat' split
  all_goals rfl

theorem decodeNsym_wf (c : NCode) : WellFormed (decodeNsym c) := by
  unfold decodeNsym
  repeat' split
  all_goals rfl

theorem decodeXsym_wf (v : XCode) : WellFormed (decodeXsym v) := by
  by_cases h : v.toNat ≤ 25
  · rw [decodeXsym_xcode h]
    exact decide_eq_true h
  · rw [decodeXsym_xcodeNever (by omega)]
    exact decide_eq_true (by omega)

/-- The eight normal codes each have a row of their own (30_encoding.md R85). -/
theorem encode_decodeNsym (c : NCode) : encode (decodeNsym c) = .ofNsym c := by
  revert c
  decide

/-- The rows XCODE and XCODE_NEVER have the 5-bit value as their word (30_encoding.md R86). -/
theorem encode_decodeXsym (v : XCode) : encode (decodeXsym v) = .ofXsym v := by
  by_cases h : v.toNat ≤ 25
  · rw [decodeXsym_xcode h, encode]
  · rw [decodeXsym_xcodeNever (by omega), encode]

theorem encode_decodeHdr (h : HdrWord) : encode (decodeHdr h) = .ofHdr h := by
  rw [decodeHdr, encode, hdrWord_fields]

/-- Settles O2: format by format, what the decoder answers is well formed and, outside CMD, has the word as its own;
the word decodes back by O1. -/
theorem encodeOfDecode : Obligations.EncodeOfDecode := by
  intro f i h
  suffices hs : WellFormed i ∧ (f.fmt ≠ .cmd → f = encode i) from ⟨hs.1, decodeOfEncode i hs.1, hs.2⟩
  obtain ⟨w, rfl, rfl⟩ | ⟨c, rfl, rfl⟩ | ⟨v, rfl, rfl⟩ | ⟨w, rfl, rfl⟩ | ⟨rfl, rfl⟩ := decode_ok_cases h
  · exact ⟨decodeCmd_wf w, fun hne => absurd rfl hne⟩
  · exact ⟨decodeNsym_wf c, fun _ => (encode_decodeNsym c).symm⟩
  · exact ⟨decodeXsym_wf v, fun _ => (encode_decodeXsym v).symm⟩
  · exact ⟨rfl, fun _ => (encode_decodeHdr w).symm⟩
  · exact ⟨rfl, fun _ => rfl⟩

/-- Settles O3: `op` selects the command, whose operand is a field of the word from bit 0 on. -/
theorem commandOperands : Obligations.CommandOperands := by
  refine fun w => ⟨fun h => ?_, fun h => ?_, fun h => ?_, fun h => ?_⟩
  · refine ⟨_, (decode_ofCmd w).trans (congrArg _ (decodeCmd_start h)), fun i hi => ?_⟩
    simp [startOperand, cmdData, hi]
  · refine ⟨_, (decode_ofCmd w).trans (congrArg _ (decodeCmd_push h)), fun i hi => ?_⟩
    simp [pushOperand, cmdData, hi]
  · rw [decode_ofCmd, decodeCmd_finish h]
  · rw [decode_ofCmd, decodeCmd_clear h]

/-- Settles O4: START is decoded from its low data byte, FINISH and CLEAR from `op` alone. -/
theorem ignoredBitsDoNotMatter : Obligations.IgnoredBitsDoNotMatter := by
  refine fun d d' => ⟨fun h => ?_, ?_, ?_⟩
  · have hop : startOperand d = startOperand d' := h
    rw [decode_ofCmd, decode_ofCmd, decodeCmd_start (cmdOp_cmdWord _ _), decodeCmd_start (cmdOp_cmdWord _ _),
      cmdData_cmdWord, cmdData_cmdWord, hop]
  · rw [decode_ofCmd, decode_ofCmd, decodeCmd_finish (cmdOp_cmdWord _ _), decodeCmd_finish (cmdOp_cmdWord _ _)]
  · rw [decode_ofCmd, decode_ofCmd, decodeCmd_clear (cmdOp_cmdWord _ _), decodeCmd_clear (cmdOp_cmdWord _ _)]

/-- Settles O5: each word is a number, decoded by evaluation. -/
theorem writtenWordsDecode : Obligations.WrittenWordsDecode := by
  unfold Obligations.WrittenWordsDecode
  decide

end Sys2Proof
end

section
/-! SUPPORT. A difference value is determined by its set bits, these by their gaps, and the gaps by the two lists of
codes SCAN gives (30_encoding.md R93). -/

namespace Sys2Proof.Machine

/-- The normal code of a gap: itself below 7, else `ESC` (41_symbol.md R111, R112). -/
def gapCode (g : Nat) : NCode := if g < 7 then normalOf g else escCode

theorem scan_fst_eq_map_gapCode (d : Word) : (scan d).1 = (gaps d).map gapCode ++ [termCode] := scan_fst d

/-- Gaps of one normal code are equal, or both escaped. -/
theorem eq_or_escaped_of_gapCode_eq {g g' : Nat} (h : gapCode g = gapCode g') : g = g' ∨ 7 ≤ g ∧ 7 ≤ g' := by
  have hesc : 7 ≤ g ↔ 7 ≤ g' := by
    rw [← normalCode_eq_esc g, ← normalCode_eq_esc g']
    exact iff_of_eq (congrArg (· = 7#3) h)
  by_cases hg : 7 ≤ g
  · exact .inr ⟨hg, hesc.1 hg⟩
  · rw [gapCode, gapCode, if_pos (by omega), if_pos (by omega), normalOf, normalOf, ← BitVec.toNat_inj,
      BitVec.toNat_ofNat, BitVec.toNat_ofNat] at h
    exact .inl (by omega)

/-- Escaped gaps of one exceptional code are equal, as none is past 32 (30_encoding.md R87). -/
theorem eq_of_exceptionalOf_eq {g g' : Nat} (hg : 7 ≤ g ∧ g ≤ 32) (hg' : 7 ≤ g' ∧ g' ≤ 32)
    (h : exceptionalOf g = exceptionalOf g') : g = g' := by
  rw [exceptionalOf, exceptionalOf, ← BitVec.toNat_inj, BitVec.toNat_ofNat, BitVec.toNat_ofNat] at h
  omega

/-- The exceptional codes of a list of gaps, one for each that is escaped (41_symbol.md R112). -/
def escapedCodes (gs : List Nat) : List XCode := (gs.filter (fun g => decide (7 ≤ g))).map exceptionalOf

theorem scan_snd_eq_escapedCodes (d : Word) : (scan d).2 = escapedCodes (gaps d) := scan_snd d

theorem escapedCodes_cons_small {g : Nat} (gs : List Nat) (h : ¬ 7 ≤ g) :
    escapedCodes (g :: gs) = escapedCodes gs := by
  simp [escapedCodes, h]

theorem escapedCodes_cons_escaped {g : Nat} (gs : List Nat) (h : 7 ≤ g) :
    escapedCodes (g :: gs) = exceptionalOf g :: escapedCodes gs := by
  simp [escapedCodes, h]

/-- Gaps of at most 32 are read back from their two lists of codes, one normal code at a time (30_encoding.md R93). -/
theorem gaps_eq_of_codes_eq {gs gs' : List Nat} (hb : ∀ g ∈ gs, g ≤ 32) (hb' : ∀ g ∈ gs', g ≤ 32)
    (hn : gs.map gapCode = gs'.map gapCode) (hx : escapedCodes gs = escapedCodes gs') : gs = gs' := by
  induction gs generalizing gs' with
  | nil => exact (List.map_eq_nil_iff.1 hn.symm).symm
  | cons g gs ih =>
    cases gs' with
    | nil => cases hn
    | cons g' gs' =>
      obtain ⟨hg, hgs⟩ := List.forall_mem_cons.1 hb
      obtain ⟨hg', hgs'⟩ := List.forall_mem_cons.1 hb'
      obtain ⟨hhead, htail⟩ := List.cons.inj hn
      have hsame : g = g' ∧ escapedCodes gs = escapedCodes gs' := by
        by_cases h7 : 7 ≤ g
        · have h7' : 7 ≤ g' := (eq_or_escaped_of_gapCode_eq hhead).elim (fun h => h ▸ h7) And.right
          rw [escapedCodes_cons_escaped _ h7, escapedCodes_cons_escaped _ h7'] at hx
          obtain ⟨he, hes⟩ := List.cons.inj hx
          exact ⟨eq_of_exceptionalOf_eq ⟨h7, hg⟩ ⟨h7', hg'⟩ he, hes⟩
        · obtain rfl : g = g' := (eq_or_escaped_of_gapCode_eq hhead).resolve_right fun h => h7 h.1
          rw [escapedCodes_cons_small _ h7, escapedCodes_cons_small _ h7] at hx
          exact ⟨rfl, hx⟩
      rw [hsame.1, ih hgs hgs' htail hsame.2]

/-- Positions that rise strictly above `last` are read back from their gaps. -/
theorem eq_of_gapsFrom_eq {last : Nat} {ps qs : List Nat} (hp : ps.Pairwise (· < ·)) (hq : qs.Pairwise (· < ·))
    (hlp : ∀ p ∈ ps, last < p) (hlq : ∀ q ∈ qs, last < q) (h : gapsFrom last ps = gapsFrom last qs) : ps = qs := by
  induction ps generalizing last qs with
  | nil =>
    cases qs with
    | nil => rfl
    | cons q qs => cases h
  | cons p ps ih =>
    cases qs with
    | nil => cases h
    | cons q qs =>
      obtain ⟨hpps, hps⟩ := List.pairwise_cons.1 hp
      obtain ⟨hqqs, hqs⟩ := List.pairwise_cons.1 hq
      obtain ⟨hhead, htail⟩ := List.cons.inj h
      have hlp' := hlp p List.mem_cons_self
      have hlq' := hlq q List.mem_cons_self
      obtain rfl : p = q := by omega
      rw [ih hps hqs hpps hqqs htail]

theorem setBits_eq_of_gaps_eq {d d' : Word} (h : gaps d = gaps d') : setBits d = setBits d' :=
  eq_of_gapsFrom_eq (setBits_sorted d) (setBits_sorted d') (fun _ hp => (setBits_mem hp).1)
    (fun _ hp => (setBits_mem hp).1) h

theorem mem_setBits_iff (d : Word) {i : Nat} (hi : i < 32) : i + 1 ∈ setBits d ↔ d.getLsbD i = true := by
  simp [setBits, List.mem_filterMap, hi]

theorem eq_of_setBits_eq {d d' : Word} (h : setBits d = setBits d') : d = d' := by
  refine BitVec.eq_of_getLsbD_eq fun i hi => Bool.eq_iff_iff.2 ?_
  rw [← mem_setBits_iff d hi, ← mem_setBits_iff d' hi, h]

/-- Settles O33: from the codes back to the gaps, from the gaps to the set bits. -/
theorem scanIsDecodable : Obligations.ScanIsDecodable := by
  intro d d' h
  have hn : (gaps d).map gapCode = (gaps d').map gapCode := by
    refine List.append_cancel_right (bs := [termCode]) ?_
    rw [← scan_fst_eq_map_gapCode, ← scan_fst_eq_map_gapCode, h]
  have hx : escapedCodes (gaps d) = escapedCodes (gaps d') := by
    rw [← scan_snd_eq_escapedCodes, ← scan_snd_eq_escapedCodes, h]
  have hg := gaps_eq_of_codes_eq (fun _ hg => (gaps_bounds hg).2) (fun _ hg => (gaps_bounds hg).2) hn hx
  exact eq_of_setBits_eq (setBits_eq_of_gaps_eq hg)

end Sys2Proof.Machine
end

section
/-! SUPPORT. The row whose values the block never emits (30_encoding.md R91). -/

namespace Sys2Proof.Machine

/-- Settles O27: the row's meaning is the refusal, whatever the state. -/
theorem xcodeNeverIsRefused : Obligations.XcodeNeverIsRefused := by
  intro v s
  rw [exec, execXcodeNever]

end Sys2Proof.Machine
end

section
/-! SUPPORT. Where the next set bit of a scan is (41_symbol.md R120), and what the emission there does (R111, R112):
TERM, GAP1 to GAP6, ESC and XCODE as rows of the scan in flight. -/

namespace Sys2Proof.Machine

/-- The positions of the set bits a scan has still to visit. -/
def Scan.ahead (c : Scan) : List Nat := positionsFrom c.d c.bit (33 - c.bit)

theorem ahead_start (d : Word) : (Scan.start d).ahead = setBits d := (setBits_eq_positionsFrom d).symm

theorem atBit_iff (c : Scan) : c.atBit = true ↔ c.bit ≤ 32 ∧ c.here = true := by simp [Scan.atBit]

theorem ahead_of_past {c : Scan} (h : 32 < c.bit) : c.ahead = [] := by
  rw [Scan.ahead, Nat.sub_eq_zero_of_le h]
  rfl

/-- Before the end, the set bits ahead are the one looked at, if it is set, and those from the next position on. -/
theorem ahead_of_le {c : Scan} (h : c.bit ≤ 32) :
    c.ahead = if c.here then c.bit :: c.advance.ahead else c.advance.ahead := by
  have hnext : c.advance.ahead = positionsFrom c.d (c.bit + 1) (32 - c.bit) :=
    congrArg (positionsFrom c.d (c.bit + 1)) (Nat.add_sub_add_right 32 1 c.bit)
  rw [hnext, Scan.ahead, show 33 - c.bit = (32 - c.bit) + 1 by omega, positionsFrom_succ]
  rfl

/-- No set bit is skipped. -/
theorem ahead_skip (n : Nat) (c : Scan) : (Scan.skip n c).ahead = c.ahead := by
  induction n generalizing c with
  | zero => rfl
  | succ n ih =>
    rw [Scan.skip]
    split
    next h => rw [ih, ahead_of_le h.1, h.2]; rfl
    next => rfl

/-- Enough iterations of the skip end at a set bit or past the end. -/
theorem skip_stops (n : Nat) (c : Scan) (h : 33 ≤ c.bit + n) :
    32 < (Scan.skip n c).bit ∨ (Scan.skip n c).atBit = true := by
  induction n generalizing c with
  | zero => exact .inl h
  | succ n ih =>
    rw [Scan.skip]
    split
    next => exact ih c.advance (h.trans_eq (Nat.add_right_comm c.bit n 1))
    next hstop =>
      by_cases hb : c.bit ≤ 32
      · exact .inr ((atBit_iff c).2 ⟨hb, Bool.eq_true_of_not_eq_false fun hc => hstop ⟨hb, hc⟩⟩)
      · exact .inl (by omega)

/-- The scan stands past the end where no set bit is ahead, and else at the first that is. -/
theorem seek_cases {c : Scan} (h : 1 ≤ c.bit) :
    (c.ahead = [] ∧ 32 < c.seek.bit) ∨
    (c.seek.atBit = true ∧ c.ahead = c.seek.bit :: c.seek.advance.ahead) := by
  have hskip : c.seek.ahead = c.ahead := ahead_skip 32 c
  rcases skip_stops 32 c (by omega) with hpast | hat
  · exact .inl ⟨hskip.symm.trans (ahead_of_past hpast), hpast⟩
  · obtain ⟨hle, hhere⟩ := (atBit_iff c.seek).1 hat
    refine .inr ⟨hat, ?_⟩
    rw [← hskip, ahead_of_le hle, if_pos hhere]

/-- The emission of a gap: the row of its normal code (41_symbol.md R111, R112). -/
def Scan.emission (g : Nat) : Scan → Scan := if g < 7 then Scan.emitCode g else Scan.emitEscape

/-- The row named by the normal code of a gap is the emission of that gap. -/
theorem exec_gapCode {g : Nat} (hg : 1 ≤ g) (s : State) :
    exec (decodeNsym (gapCode g)) s = .next (onScan (Scan.emission g) s) := by
  by_cases h : g < 7
  · interval_cases g <;> rfl
  · rw [gapCode, Scan.emission, if_neg h, if_neg h]
    rfl

/-- An emission that comes up is the iteration of the loop of SCAN at its set bit (41_symbol.md R110). -/
theorem emission_eq_visit {c : Scan} (h : c.seek.atBit = true) : c.emission c.seek.gap = c.seek.visit := by
  have hhere : c.seek.here = true := ((atBit_iff _).1 h).2
  by_cases hg : c.seek.gap < 7
  · simp [Scan.emission, Scan.emitCode, Scan.emitWhen, Scan.visit, h, hhere, hg]
  · simp [Scan.emission, Scan.emitEscape, Scan.emitWhen, Scan.visit, h, hhere, hg, Nat.not_lt.1 hg]

/-- What the iteration of the loop of SCAN does at a set bit (41_symbol.md R110 to R112). -/
theorem visit_of_here {c : Scan} (h : c.here = true) :
    c.visit =
      { c with
        bit := c.bit + 1, lastBit := c.bit
        ns := c.ns ++ [gapCode c.gap], xs := c.xs ++ escapedCodes [c.gap] } := by
  rw [Scan.visit, if_pos h]
  by_cases hg : c.gap < 7
  · rw [if_pos hg, gapCode, if_pos hg, escapedCodes_cons_small _ (by omega)]
    simp [Scan.emitGap, Scan.advance, escapedCodes]
  · rw [if_neg hg, gapCode, if_neg hg, escapedCodes_cons_escaped _ (by omega)]
    simp [Scan.emitEsc, Scan.advance, escapedCodes]

theorem escapedCodes_cons (g : Nat) (gs : List Nat) :
    escapedCodes (g :: gs) = escapedCodes [g] ++ escapedCodes gs := by
  by_cases h : 7 ≤ g
  · rw [escapedCodes_cons_escaped _ h, escapedCodes_cons_escaped _ h]
    rfl
  · rw [escapedCodes_cons_small _ h, escapedCodes_cons_small _ h]
    rfl

/-- The emission at the first set bit ahead leaves the others ahead. -/
theorem emission_of_ahead_cons {c : Scan} {p : Nat} {ps : List Nat} (hbit : 1 ≤ c.bit) (h : c.ahead = p :: ps) :
    c.emission (p - c.lastBit) =
        { c with
          bit := p + 1, lastBit := p
          ns := c.ns ++ [gapCode (p - c.lastBit)], xs := c.xs ++ escapedCodes [p - c.lastBit] } ∧
      positionsFrom c.d (p + 1) (33 - (p + 1)) = ps := by
  rcases seek_cases hbit with ⟨hnil, -⟩ | ⟨hat, hcons⟩
  · exact nomatch hnil.symm.trans h
  obtain ⟨hp, hps⟩ := List.cons.inj (h.symm.trans hcons)
  have hseek : c.seek = { c with bit := p } := hp ▸ skip_eq 32 c
  have hrow := emission_eq_visit hat
  rw [visit_of_here ((atBit_iff _).1 hat).2, hseek] at hrow
  rw [hseek] at hps
  exact ⟨hrow, hps.symm⟩

/-- TERM, once no set bit is ahead, takes the terminator out (41_symbol.md R113). -/
theorem emitEnd_of_ahead_nil {c : Scan} (hbit : 1 ≤ c.bit) (hend : c.ended = false) (h : c.ahead = []) :
    c.emitEnd = { c with bit := c.seek.bit, ns := c.ns ++ [termCode], ended := true } := by
  have hpast : 32 < c.seek.bit := (seek_cases hbit).elim And.right fun h' => nomatch h.symm.trans h'.2
  rw [Scan.emitEnd, hend, if_pos (by simpa using hpast)]
  exact congrArg Scan.emitTerm (skip_eq 32 c)

/-- TERM changes nothing once the terminator is out (log entry 8). -/
theorem emitEnd_of_ended {c : Scan} (h : c.ended = true) : c.emitEnd = c := by simp [Scan.emitEnd, h]

theorem onScan_scan_some (f : Scan → Scan) {s : State} {c : Scan} (hs : s.scan = some c) :
    (onScan f s).scan = some (f c) := by
  rw [onScan_scan, hs, Option.map_some]

theorem onScan_eq_self {f : Scan → Scan} {s : State} {c : Scan} (hs : s.scan = some c) (hf : f c = c) :
    onScan f s = s := by
  rw [onScan, hs, Option.map_some, hf, ← hs]

/-- XCODE v is the same row as ESC where the escape's exceptional code is v (log entry 9). -/
theorem exec_xcode_eq_exec_esc {s : State} {c : Scan} {v : XCode} (hs : s.scan = some c)
    (hv : exceptionalOf c.seek.gap = v) : exec (.xcode v) s = exec .esc s := by
  have hrow : c.emitEscapeOf v = c.emitEscape := by simp [Scan.emitEscapeOf, Scan.emitEscape, Scan.emitWhen, hv]
  simp only [exec, execXcode, execEsc, onScan, hs, Option.map_some, hrow]

end Sys2Proof.Machine
end

section
/-! SUPPORT. The rows of an emission, run on the scan in flight (41_symbol.md R111 to R113). -/

namespace Sys2Proof.Safety

open Sys2Proof.Machine

theorem AtSetBit.seek_eq {c : Scan} (h : AtSetBit c) : c.seek = c := seek_of_here h.2.2

/-- At a set bit, the row of the gap's normal code appends that code, and the exceptional code of an escape. -/
theorem emits_gapCode {s : State} {c : Scan} {g : Nat} (hs : s.scan = some c) (hc : AtSetBit c)
    (hg : c.bit - c.lastBit = g) (hpos : 1 ≤ g) :
    Emits (decodeNsym (gapCode g)) s c [gapCode g] (escapedCodes [g]) := by
  subst hg
  have hat : c.seek.atBit = true := by
    rw [hc.seek_eq]
    exact (atBit_iff c).2 hc.2
  have hrow : c.emission (c.bit - c.lastBit) = c.visit := by
    have := emission_eq_visit hat
    rwa [hc.seek_eq] at this
  refine ⟨_, c.visit, exec_gapCode hpos s, ?_, ?_⟩
  · rw [onScan_scan_some _ hs, hrow]
  · rw [visit_of_here hc.2.2]
    exact ⟨rfl, rfl, rfl, rfl⟩

/-- Settles O21: each row is the one named by the code of its gap, which escapes nothing. -/
theorem gapRowsEmit : Obligations.GapRowsEmit := fun _ _ hs hc =>
  ⟨fun h => emits_gapCode hs hc h (by decide), fun h => emits_gapCode hs hc h (by decide),
    fun h => emits_gapCode hs hc h (by decide), fun h => emits_gapCode hs hc h (by decide),
    fun h => emits_gapCode hs hc h (by decide), fun h => emits_gapCode hs hc h (by decide)⟩

/-- Settles O22: the code of an escaped gap is 7, and its exceptional code is the gap less 7. -/
theorem escRowEmits : Obligations.EscRowEmits := by
  intro s c hs hc h7 _
  have h := emits_gapCode hs hc rfl (by omega)
  rwa [gapCode, if_neg (by omega), escapedCodes_cons_escaped _ h7] at h

/-- Settles O23: the row is ESC's, whose exceptional code here is v. -/
theorem xcodeRowEmits : Obligations.XcodeRowEmits := by
  intro s c v hs hc hv hgap
  have hcode : BitVec.ofNat 5 (c.bit - c.lastBit - 7) = v := by
    rw [hgap, Nat.add_sub_cancel_left, BitVec.ofNat_toNat, BitVec.setWidth_eq]
  have hrow : exec (.xcode v) s = exec .esc s := by
    refine exec_xcode_eq_exec_esc hs ?_
    rw [hc.seek_eq]
    exact hcode
  have h := escRowEmits s c hs hc (by omega) (by omega)
  rw [hcode] at h
  rw [Emits, hrow]
  exact h

/-- Settles O24: the row moves past the end, takes the terminator out, and then comes up no more. -/
theorem termRowEmits : Obligations.TermRowEmits := by
  intro s c hs hend hbit hclear
  have hahead : c.ahead = [] := by
    refine List.filterMap_eq_nil_iff.2 fun p hp => ?_
    rw [List.mem_range'_1] at hp
    rw [hclear p hp.1 (by omega)]
    rfl
  have hscan := onScan_scan_some Scan.emitEnd hs
  rw [emitEnd_of_ahead_nil hbit hend hahead] at hscan
  have hagain : exec .term (onScan Scan.emitEnd s) = .next (onScan Scan.emitEnd s) :=
    congrArg Host.Outcome.next (onScan_eq_self hscan (emitEnd_of_ended rfl))
  exact ⟨_, _, rfl, hscan, rfl, rfl, hagain⟩

/-- The rows of the codes still to come, run one after another: an induction over the set bits ahead, each row finding
the next of them (41_symbol.md R110 to R113). -/
theorem execAll_emissions {s : State} {c : Scan} (hs : s.scan = some c) (hlast : c.lastBit < c.bit)
    (hend : c.ended = false) :
    ∃ t c', execAll (((gapsFrom c.lastBit c.ahead).map gapCode ++ [termCode]).map decodeNsym) s = .next t ∧
      t.scan = some c' ∧ c'.ns = c.ns ++ ((gapsFrom c.lastBit c.ahead).map gapCode ++ [termCode]) ∧
      c'.xs = c.xs ++ escapedCodes (gapsFrom c.lastBit c.ahead) ∧ c'.ended = true := by
  induction hps : c.ahead generalizing s c with
  | nil =>
    refine ⟨onScan Scan.emitEnd s, c.emitEnd, rfl, onScan_scan_some _ hs, ?_⟩
    rw [emitEnd_of_ahead_nil (by omega) hend hps]
    exact ⟨rfl, (List.append_nil _).symm, rfl⟩
  | cons p ps ih =>
    have hle : c.bit ≤ p := (positionsFrom_mem (hps ▸ List.mem_cons_self : p ∈ c.ahead)).1
    obtain ⟨hrow, hahead⟩ := emission_of_ahead_cons (by omega) hps
    have hscan := onScan_scan_some (Scan.emission (p - c.lastBit)) hs
    rw [hrow] at hscan
    obtain ⟨t, c', hrun, ht, hns, hxs, hended⟩ := ih hscan (Nat.lt_succ_self p) hend hahead
    refine ⟨t, c', ?_, ht, ?_, ?_, hended⟩
    · exact (execAll_cons_next _ (exec_gapCode (by omega) s)).trans hrun
    · exact hns.trans (List.append_assoc ..)
    · rw [gapsFrom, escapedCodes_cons, ← List.append_assoc]
      exact hxs

/-- Settles O26: from the start of a scan the rows to come are those of all its codes. -/
theorem emissionsRebuildScan : Obligations.EmissionsRebuildScan := by
  intro s d hs
  have h := execAll_emissions hs Nat.zero_lt_one rfl
  rw [ahead_start] at h
  rw [scan_fst_eq_map_gapCode, scan_snd_eq_escapedCodes]
  exact h

end Sys2Proof.Safety
end

section
/-! SUPPORT. SCAN as a function of the gaps (41_symbol.md R114, R116, R117, R122, R124). -/

namespace Sys2Proof.Machine

/-- The normal code of a gap is the lesser of the gap and 7 (41_symbol.md R117). -/
theorem gapCode_eq_min (g : Nat) : gapCode g = BitVec.ofNat 3 (min g 7) := by
  by_cases h : g < 7
  · rw [gapCode, if_pos h, Nat.min_eq_left h.le, normalOf]
  · rw [gapCode, if_neg h, Nat.min_eq_right (Nat.not_lt.1 h)]
    rfl

/-- Settles O29: the loop appends one code for each gap, and one more for each escape. -/
theorem scanClosedForm : Obligations.ScanClosedForm := fun d =>
  Prod.ext (by rw [scan_fst_eq_map_gapCode, funext gapCode_eq_min]; rfl) (scan_snd d)

theorem popcount_le (d : Word) : popcount d ≤ 32 := (List.length_filterMap_le _ _).trans_eq List.length_range

/-- Gaps of 7 or more are at most 4, as all gaps add up to at most 32 (41_symbol.md R116). -/
theorem bigGaps_le (d : Word) : bigGaps d ≤ 4 := by
  have hsum : ((gaps d).filter (fun g => decide (7 ≤ g))).sum ≤ 32 :=
    (List.filter_sublist.sum_le_sum fun _ _ => Nat.zero_le _).trans (gaps_sum_le d)
  have hcard : bigGaps d * 7 ≤ ((gaps d).filter (fun g => decide (7 ≤ g))).sum :=
    List.card_nsmul_le_sum _ 7 fun g hg => of_decide_eq_true (List.mem_filter.1 hg).2
  omega

/-- No gap of a difference value has the code of the terminator (41_symbol.md R116). -/
theorem termCode_notMem_gapCodes (d : Word) : termCode ∉ (gaps d).map gapCode := fun h => by
  obtain ⟨g, hg, he⟩ := List.mem_map.1 h
  exact normalCode_ne_term (gaps_bounds hg).1 he

/-- Settles O32: the loop, evaluated on each row of the table. -/
theorem scanExamples : Obligations.ScanExamples := by
  unfold Obligations.ScanExamples
  decide +kernel

/-- Settles O30: the counts are those of the gaps, and three rows of the table reach the extremes. -/
theorem scanCounts : Obligations.ScanCounts := by
  obtain ⟨-, hzero, -, -, -, -, -, -, hfour, hones, -, -⟩ := scanExamples
  refine ⟨fun d => ⟨scan_fst_length d, popcount_le d, scan_snd_length d, ?_, ?_, _, scan_fst_eq_map_gapCode d,
    termCode_notMem_gapCodes d⟩, congrArg (·.1.length) hzero, congrArg (·.1.length) hones,
    congrArg (·.2.length) hfour⟩
  · rw [scan_snd_length]
    exact bigGaps_le d
  · rw [scan_snd_length]
    exact scan_count_esc d

/-- Settles O34: the counts of one difference value, added up over the transaction. -/
theorem streamLaws : Obligations.StreamLaws := fun t =>
  ⟨normalStream_length t, exceptionalStream_length t, normalStream_count_term t, normalStream_count_esc t,
    fun _ => exceptionalStream_le⟩

/-- Settles O15: a repeated word differs in no bit, so the terminator is its one code. -/
theorem zeroDifferenceIsOneTerminator : Obligations.ZeroDifferenceIsOneTerminator := by
  have hscan : scan 0 = ([0], []) := scanExamples.2.1
  refine ⟨hscan, fun s hp hn hx => ?_⟩
  have hcodes : scan (delta s.prev s.prev) = ([0], []) := by rw [delta, BitVec.xor_self]; exact hscan
  have hfit : codesFit s ([0], []) = true := (codesFit_iff s _).2 ⟨hn, hx⟩
  have hpush : exec (.push s.prev) s = .next (appendWord s.prev ([0], []) s) := by
    rw [exec, execPush, inPhase_legal _ hp (by decide), pushWord, hcodes, if_pos hfit]
  refine ⟨_, hpush, ?_⟩
  rw [appendWord_eq]
  refine ⟨rfl, ?_, rfl⟩
  simp [nAppends_read]

end Sys2Proof.Machine
end

section
/-! SUPPORT. The statements about the buffer FINISH builds: its bytes, its length and its count field (42_pack.md R134,
R140, R146, R147). -/

namespace Sys2Proof.Machine

open Sys2Proof.Safety

/-- PACK is done where its buffer fits and both memories hold the codes counted (42_pack.md R140). -/
theorem pack_done_of_memHolds {s : State} {N : List NCode} {X : List XCode}
    (hfit : bufferBytes s.ncnt s.xcnt ≤ s.cfg.ocap) (hN : s.ncnt = N.length) (hX : s.xcnt = X.length)
    (hn : MemHolds s.nmem N) (hx : MemHolds s.xmem X) : ∃ o, pack s = .done o := by
  obtain ⟨o, ho, -⟩ := pack_spec s _ _ hfit (fun _ hi => memHolds_read_getD hn (hN ▸ hi))
    (fun _ hi => memHolds_read_getD hx (hX ▸ hi))
  exact ⟨o, ho⟩

/-- The header and the two regions are as long as SIZE says (42_pack.md R131, R146). -/
theorem header_regions_length (sel : CntSel) (alg : Byte) (count : BitVec 64) (N : List NCode) (X : List XCode) :
    (headerOf sel alg count ++ (regionBytes N ++ regionBytes X)).length = bufferBytes N.length X.length := by
  rw [List.length_append, List.length_append, regionBytes_length, regionBytes_length, ← Nat.add_assoc]
  rfl

/-- Settles O16: PACK is done, and what it leaves in `OBUF` is the header and the two regions, byte for byte. -/
theorem finishBuildsBuffer : Obligations.FinishBuildsBuffer := by
  intro s N X hp hN hX hn hx hfit
  rw [← hN, ← hX] at hfit ⊢
  obtain ⟨o, hk⟩ := pack_done_of_memHolds hfit hN hX hn hx
  refine ⟨_, execFinish_done hp hk, rfl, rfl, rfl, ?_, pack_done_memHolds hk hN hX hn hx⟩
  rw [header_regions_length, ← hN, ← hX]

theorem ceilDiv_mono {a a' : Nat} (h : a ≤ a') (b : Nat) : ceilDiv a b ≤ ceilDiv a' b :=
  Nat.div_le_div_right (by omega)

/-- More codes never make a shorter buffer (42_pack.md R147). -/
theorem bufferBytes_mono {n n' x x' : Nat} (hn : n ≤ n') (hx : x ≤ x') : bufferBytes n x ≤ bufferBytes n' x' := by
  have hR1 : normalBytes n ≤ normalBytes n' := ceilDiv_mono (by omega) 8
  have hR2 : exceptionalBytes x ≤ exceptionalBytes x' := ceilDiv_mono (by omega) 8
  unfold bufferBytes
  omega

/-- Settles O35: the length goes by the lengths of the two streams, and one more word only appends to both. -/
theorem encodedSizeLaw : Obligations.EncodedSizeLaw := by
  intro sel a t w
  refine ⟨?_, ?_⟩
  · rw [encodeBuffer_length, normalStream_length, exceptionalStream_length]
    rfl
  · rw [encodeBuffer_length, encodeBuffer_length, normalStream_concat, exceptionalStream_concat, List.length_append,
      List.length_append]
    exact bufferBytes_mono (Nat.le_add_right _ _) (Nat.le_add_right _ _)

/-- Settles O28: the row writes the header's four bytes, whatever its word. -/
theorem headerRowWrites : Obligations.HeaderRowWrites :=
  fun _ _ _ _ s => ⟨_, rfl, fun _ hk => headerBytes_read_header s.cfg.cntSel s.alg s.count s.obuf hk⟩

/-- One byte of the count, bit by bit (42_pack.md R134). -/
theorem countByte_getLsbD (count : BitVec 64) (k : Nat) {i : Nat} (hi : i < 8) :
    (count.extractLsb' k 8).getLsbD i = count.getLsbD (k + i) := by
  simp [hi]

/-- A byte of the count above all its set bits is 0 (42_pack.md R134). -/
theorem countByte_eq_zero {count : BitVec 64} {k : Nat} (h : count.toNat < 2 ^ k) : count.extractLsb' k 8 = 0#8 := by
  apply BitVec.eq_of_toNat_eq
  rw [BitVec.extractLsb'_toNat, Nat.shiftRight_eq_div_pow, Nat.div_eq_of_lt h]
  rfl

/-- The three bytes of the count under HI are 0 below `2 ^ 40` (42_pack.md R134). -/
theorem countField_hi_eq_zero {count : BitVec 64} (h : count.toNat < 2 ^ 40) : countField .hi count = (0, 0, 0) := by
  rw [countField, countByte_eq_zero h, countByte_eq_zero (by omega), countByte_eq_zero (by omega)]
  rfl

/-- The three bytes of the count under LO as a little-endian number (42_pack.md R134). -/
theorem countField_lo_toNat (count : BitVec 64) :
    (countField .lo count).1.toNat + 256 * (countField .lo count).2.1.toNat +
      65536 * (countField .lo count).2.2.toNat = count.toNat % 2 ^ 24 := by
  simp only [countField, BitVec.extractLsb'_toNat, Nat.shiftRight_eq_div_pow]
  omega

/-- Settles O37: each byte is cut out of the count at its own place. -/
theorem countFieldBytes : Obligations.CountFieldBytes := by
  refine fun count => ⟨fun i hi => ⟨?_, ?_, ?_, ?_, ?_, ?_⟩, countField_hi_eq_zero, countField_lo_toNat count⟩
  · exact countByte_getLsbD count 40 hi
  · exact countByte_getLsbD count 48 hi
  · exact countByte_getLsbD count 56 hi
  · exact (countByte_getLsbD count 0 hi).trans (by rw [Nat.zero_add])
  · exact countByte_getLsbD count 8 hi
  · exact countByte_getLsbD count 16 hi

end Sys2Proof.Machine
end

section
/-! SUPPORT. The bytes each writer of PACK touches, and that F_BITWRITE is unreachable (42_pack.md R141, R148). -/

namespace Sys2Proof.Machine

/-- The field of every code of a region ends within the region's bytes (42_pack.md R141). -/
theorem lastByte_lt_region {w : Nat} (hw : 0 < w) (base : Nat) {k n : Nat} (h : k < n) :
    lastByte base (w * k) w < base + ceilDiv (w * n) 8 := by
  have hk : w * k + w ≤ w * n := Nat.mul_le_mul_left w h
  unfold lastByte ceilDiv
  omega

/-- Packing the codes up to `k + n` changes no byte outside the region they fill (42_pack.md R138, R139, R141). -/
theorem packRegion_frame {w : Nat} (hw : 0 < w) {stop : Nat → Fault} {codes : Memory w} {olen base n k a : Nat}
    {o o' : Memory 8} (h : packRegion stop codes olen base k n o = .done o')
    (ha : a < base ∨ base + ceilDiv (w * (k + n)) 8 ≤ a) : o'.read a = o.read a := by
  induction n generalizing k o with
  | zero => cases h; rfl
  | succ n ih =>
    simp only [packRegion] at h
    split at h
    · cases h
    · rename_i v _
      cases hp : putBits olen base (w * k) v o with
      | done o₁ =>
        rw [hp] at h
        have hlast : lastByte base (w * k) w < base + ceilDiv (w * (k + (n + 1))) 8 :=
          lastByte_lt_region hw base (by omega)
        calc o'.read a
            = o₁.read a := ih h (by rwa [Nat.add_assoc, Nat.add_comm 1 n])
          _ = o.read a := putBits_frame olen base (w * k) v hp (by omega)
      | raised c => rw [hp] at h; cases h
      | stopped f => rw [hp] at h; cases h

/-- PACKN changes no byte outside its range (42_pack.md R141). -/
theorem packN_frame {s : State} {olen a : Nat} {o o' : Memory 8} (h : packN s olen o = .done o')
    (ha : inNormal s.ncnt a = false) : o'.read a = o.read a := by
  refine packRegion_frame (by omega) h ?_
  rw [Nat.zero_add]
  change a < 4 ∨ 4 + normalBytes s.ncnt ≤ a
  simp only [inNormal, Bool.and_eq_false_iff, decide_eq_false_iff_not] at ha
  omega

/-- PACKX changes no byte outside its range (42_pack.md R141). -/
theorem packX_frame {s : State} {olen a : Nat} {o o' : Memory 8} (h : packX s olen o = .done o')
    (ha : inExceptional s.ncnt s.xcnt a = false) : o'.read a = o.read a := by
  refine packRegion_frame (by omega) h ?_
  rw [Nat.zero_add]
  change a < 4 + normalBytes s.ncnt ∨ bufferBytes s.ncnt s.xcnt ≤ a
  simp only [inExceptional, Bool.and_eq_false_iff, decide_eq_false_iff_not] at ha
  omega

/-- No byte lies in two of the three ranges (42_pack.md R141). -/
theorem ranges_disjoint (ncnt xcnt a : Nat) :
    (inHeader a && inNormal ncnt a) = false ∧ (inHeader a && inExceptional ncnt xcnt a) = false ∧
      (inNormal ncnt a && inExceptional ncnt xcnt a) = false := by
  simp only [inHeader, inNormal, inExceptional, Bool.and_eq_false_iff, decide_eq_false_iff_not]
  omega

/-- Raising one code records no other: a code that stands afterwards and is not the one raised stood before (10_state.md
R33). -/
theorem fault_of_raiseFault_fault {c d : FaultCode} {s : State} (hcd : c ≠ d) (h : (raiseFault c s).fault = d) :
    s.fault = d := by
  rw [raiseFault_fault] at h
  split at h
  · exact absurd h hcd
  · exact h

/-- No operation records F_BITWRITE (42_pack.md R148). -/
theorem Did.fault_of_bitwrite {i : Instr} {s t : State} (h : Did i s t) (ht : t.fault = .bitwrite) :
    s.fault = .bitwrite := by
  rcases h.fault_cases with ⟨hf, -⟩ | ⟨-, rfl⟩ | ⟨-, -, rfl⟩ | ⟨-, -, rfl⟩
  · exact hf ▸ ht
  · cases ht
  · exact fault_of_raiseFault_fault (by decide) ht
  · exact fault_of_raiseFault_fault (by decide) ht

/-- Settles O43: each writer by its frame, each field by the end of its region, and PACK raises F_RESOURCE only. -/
theorem bitWriteFaultUnreachable : Obligations.BitWriteFaultUnreachable := by
  refine ⟨fun sel alg count o a ha => ?_, fun _ _ _ _ _ => packN_frame, fun _ _ _ _ _ => packX_frame, ranges_disjoint,
    fun ncnt xcnt k => ⟨fun hk => ?_, fun hk => ?_⟩, fun s h => ?_, fun i s t h => (exec_did h).fault_of_bitwrite⟩
  · exact headerBytes_frame sel alg count o (by simpa [inHeader] using ha)
  · have hlast : lastByte 4 (3 * k) 3 < 4 + normalBytes ncnt := lastByte_lt_region (by omega) 4 hk
    unfold bufferBytes
    omega
  · have hlast : lastByte (4 + normalBytes ncnt) (5 * k) 5 < 4 + normalBytes ncnt + exceptionalBytes xcnt :=
      lastByte_lt_region (by omega) _ hk
    unfold bufferBytes
    omega
  · obtain ⟨hc, -⟩ := pack_raised s _ h
    cases hc

end Sys2Proof.Machine
end

section
/-! SUPPORT. The bits PUTBITS writes and its byte form (42_pack.md R135, R137). -/

namespace Sys2Proof.Machine

/-- PUTBITS raises F_BITWRITE where its field would pass the end of the buffer (42_pack.md R136). -/
theorem putBits_overflow {w olen base p : Nat} (v : BitVec w) (o : Memory 8) (h : olen ≤ lastByte base p w) :
    putBits olen base p v o = .raised .bitwrite := if_pos h

/-- Where a bit of a region stands, by absolute bits of `OBUF` (20_memory.md R56). -/
theorem bitLoc_eq_iff {base p a i : Nat} (hi : i < 8) : bitLoc base p = (a, i) ↔ 8 * base + p = 8 * a + (7 - i) := by
  rw [bitLoc, Prod.mk.injEq]
  omega

/-- Bit `i` of a byte of `OBUF`, by absolute bits. -/
theorem absBit_of_read {o : Memory 8} {a : Nat} {b : Byte} (h : o.read a = some b) {i : Nat} (hi : i < 8) :
    absBit o (8 * a + (7 - i)) = some (b.getLsbD i) := by
  rw [absBit, show (8 * a + (7 - i)) / 8 = a by omega, show 7 - (8 * a + (7 - i)) % 8 = i by omega, h, Option.map_some]

/-- What PUTBITS leaves in one byte: the bits of its field, most significant first, and no other (42_pack.md R135). -/
theorem putBits_bits {w olen base p : Nat} (v : BitVec w) {o : Memory 8} (hw : 0 < w)
    (hlast : lastByte base p w < olen) (ho : ∀ a, a < olen → (o.read a).isSome) :
    ∃ o', putBits olen base p v o = .done o' ∧
      ∀ a b, o.read a = some b → ∃ b', o'.read a = some b' ∧
        ∀ i, i < 8 →
          (∀ j, j < w → bitLoc base (p + j) = (a, i) → b'.getLsbD i = v.getLsbD (w - 1 - j)) ∧
          ((∀ j, j < w → bitLoc base (p + j) ≠ (a, i)) → b'.getLsbD i = b.getLsbD i) := by
  unfold lastByte at hlast
  obtain ⟨o', hput, hshape, hbits⟩ := putBits_spec olen base p v o hw (by omega) (fun a _ ha => ho a ha)
  refine ⟨o', hput, fun a b hb => ?_⟩
  have hsome : (o'.read a).isSome := by rw [hshape.some_iff, hb]; rfl
  obtain ⟨b', hb'⟩ := Option.isSome_iff_exists.1 hsome
  refine ⟨b', hb', fun i hi => ?_⟩
  have hbit := hbits (8 * a + (7 - i))
  rw [absBit_of_read hb' hi, absBit_of_read hb hi] at hbit
  refine ⟨fun j hj hloc => ?_, fun hout => ?_⟩
  · rw [bitLoc_eq_iff hi] at hloc
    rw [if_pos (by omega), show 8 * a + (7 - i) - (8 * base + p) = j by omega] at hbit
    exact Option.some.inj hbit
  · have hnot : ¬(8 * base + p ≤ 8 * a + (7 - i) ∧ 8 * a + (7 - i) < 8 * base + p + w) := fun ⟨hge, hlt⟩ =>
      hout (8 * a + (7 - i) - (8 * base + p)) (by omega) ((bitLoc_eq_iff hi).2 (by omega))
    rw [if_neg hnot] at hbit
    exact Option.some.inj hbit

/-- Settles O38: the bound check fires at `olen`, and below it the bits of the field are written and no other. -/
theorem putBitsWritesField : Obligations.PutBitsWritesField := by
  intro w v olen base p o hw
  exact ⟨putBits_overflow v o, putBits_bits v (by omega)⟩

/-- The bit loop in two parts. -/
theorem putEach_add {w : Nat} (base p : Nat) (v : BitVec w) (m n j : Nat) (o : Memory 8) :
    putEach base p v j (m + n) o = (putEach base p v j m o).andThen (putEach base p v (j + m) n) := by
  induction m generalizing j o with
  | zero => rw [Nat.zero_add]; rfl
  | succ m ih =>
    rw [show m + 1 + n = m + n + 1 by omega, show j + (m + 1) = j + 1 + m by omega, putEach, putEach]
    split
    · rfl
    · exact ih _ _

/-- The bit loop stops at a byte that nothing has written. -/
theorem putEach_unwritten {w base p : Nat} (v : BitVec w) {j n : Nat} {o : Memory 8} (hn : 0 < n)
    (h : o.read (base + (p + j) / 8) = none) :
    putEach base p v j n o = .stopped (.obufUnwritten (base + (p + j) / 8)) := by
  cases n with
  | zero => omega
  | succ n => simp only [putEach, bitLoc, h]

/-- One bit into a byte that has a value. -/
theorem putEach_one {w base p : Nat} (v : BitVec w) {j : Nat} {o : Memory 8} {b : Byte}
    (h : o.read (base + (p + j) / 8) = some b) :
    putEach base p v j 1 o =
      .done (o.write (base + (p + j) / 8) (setBit b (7 - (p + j) % 8) (v.getLsbD (w - 1 - j)))) := by
  simp only [putEach, bitLoc, h]

/-- `setField` changes the bits `lo` to `hi` of a byte and no other (42_pack.md R137). -/
theorem setField_getLsbD (b : Byte) {hi lo : Nat} (v : Nat) (hhi : hi < 8) (hlo : lo ≤ hi) (k : Nat) :
    (setField b hi lo v).getLsbD k = if lo ≤ k ∧ k ≤ hi then v.testBit (k - lo) else b.getLsbD k := by
  have hmask : 2 ^ (hi + 1) - 2 ^ lo = 2 ^ lo * (2 ^ (hi + 1 - lo) - 1) := by
    rw [Nat.mul_sub, ← Nat.pow_add, Nat.mul_one, Nat.add_sub_cancel' (by omega)]
  by_cases hk : k < 8
  · rw [setField, hmask, Nat.mul_comm _ (2 ^ lo)]
    simp only [BitVec.getLsbD_or, BitVec.getLsbD_and, BitVec.getLsbD_not, BitVec.getLsbD_ofNat, hk, decide_true,
      Bool.true_and, Nat.testBit_two_pow_mul, Nat.testBit_two_pow_sub_one, Nat.testBit_mod_two_pow]
    by_cases h1 : lo ≤ k
    · by_cases h2 : k ≤ hi
      · have : k - lo < hi + 1 - lo := by omega
        simp [h1, h2, this]
      · have : ¬ k - lo < hi + 1 - lo := by omega
        simp [h1, h2, this]
    · simp [h1]
  · rw [if_neg (by omega), BitVec.getLsbD_of_ge _ k (by omega), BitVec.getLsbD_of_ge b k (by omega)]

/-- A field of one bit. -/
theorem setField_one {w : Nat} (b : Byte) (v : BitVec w) {i : Nat} (hi : i < 8) (k : Nat) :
    setField b i i (v.toNat / 2 ^ k) = setBit b i (v.getLsbD k) := by
  refine BitVec.eq_of_getLsbD_eq fun l _ => ?_
  rw [setField_getLsbD b _ hi (Nat.le_refl i), setBit_getLsbD b _ hi, Nat.testBit_div_two_pow]
  by_cases h : l = i
  · rw [if_pos (by omega), if_pos h, h, Nat.sub_self, Nat.zero_add]; rfl
  · rw [if_neg (by omega), if_neg h]

/-- A field with the next bit below it is the field longer by one bit. -/
theorem setBit_setField {w : Nat} (b : Byte) (v : BitVec w) {hi lo : Nat} (hhi : hi < 8) (hlo : lo + 1 ≤ hi)
    (k : Nat) :
    setBit (setField b hi (lo + 1) (v.toNat / 2 ^ (k + 1))) lo (v.getLsbD k) =
      setField b hi lo (v.toNat / 2 ^ k) := by
  refine BitVec.eq_of_getLsbD_eq fun l _ => ?_
  rw [setBit_getLsbD _ _ (by omega), setField_getLsbD b _ hhi hlo, setField_getLsbD b _ hhi (by omega),
    Nat.testBit_div_two_pow, Nat.testBit_div_two_pow]
  by_cases h1 : l = lo
  · rw [if_pos h1, if_pos (by omega), h1, Nat.sub_self, Nat.zero_add]; rfl
  · rw [if_neg h1]
    by_cases h2 : lo + 1 ≤ l ∧ l ≤ hi
    · rw [if_pos h2, if_pos (by omega), show l - (lo + 1) + (k + 1) = l - lo + k by omega]
    · rw [if_neg h2, if_neg (by omega)]

/-- Bits of a field that fall in one byte are written by one write of that byte (42_pack.md R137). -/
theorem putEach_eq_setField {w base p : Nat} (v : BitVec w) {j n : Nat} {o : Memory 8} {b : Byte} (hn : 1 ≤ n)
    (hj : j + n ≤ w) (hbyte : (p + j) % 8 + n ≤ 8) (h : o.read (base + (p + j) / 8) = some b) :
    putEach base p v j n o =
      .done (o.write (base + (p + j) / 8)
        (setField b (7 - (p + j) % 8) (8 - (p + j) % 8 - n) (v.toNat / 2 ^ (w - j - n)))) := by
  induction n, hn using Nat.le_induction with
  | base =>
    rw [putEach_one v h, show 8 - (p + j) % 8 - 1 = 7 - (p + j) % 8 by omega, setField_one b v (by omega),
      Nat.sub_right_comm]
  | succ n hn ih =>
    have hdiv : (p + (j + n)) / 8 = (p + j) / 8 := by omega
    have hmod : 7 - (p + (j + n)) % 8 = 8 - (p + j) % 8 - (n + 1) := by omega
    have hbit : w - 1 - (j + n) = w - j - (n + 1) := by omega
    have hw : w - j - n = w - j - (n + 1) + 1 := by omega
    have hlo : 8 - (p + j) % 8 - n = 8 - (p + j) % 8 - (n + 1) + 1 := by omega
    rw [putEach_add, ih (by omega) (by omega), Packed.andThen,
      putEach_one v (by rw [hdiv, Memory.read_write_same]), hdiv, hmod, hbit, Memory.write_write, hw, hlo,
      setBit_setField b v (by omega) (by omega)]

/-- The bit loop over a field that crosses into the next byte: what falls in the first byte is one write of it, and the
rest is still to come (42_pack.md R137). -/
theorem putEach_crossing {w base p : Nat} (v : BitVec w) {o : Memory 8} {b : Byte} (h : o.read (base + p / 8) = some b)
    (hcross : ¬ p % 8 + w ≤ 8) :
    putEach base p v 0 w o =
      putEach base p v (8 - p % 8) (w - (8 - p % 8))
        (o.write (base + p / 8) (setField b (8 - p % 8 - 1) 0 (v.toNat / 2 ^ (w - (8 - p % 8))))) := by
  have hsplit := putEach_add base p v (8 - p % 8) (w - (8 - p % 8)) 0 o
  have hfirst := putEach_eq_setField (p := p) (j := 0) v (n := 8 - p % 8) (by omega) (by omega)
    (by rw [Nat.add_zero]; omega) h
  rw [hfirst, Nat.add_sub_cancel' (by omega), Nat.zero_add] at hsplit
  rw [hsplit, Nat.add_zero, Nat.sub_self, Nat.sub_zero, show 7 - p % 8 = 8 - p % 8 - 1 by omega]
  rfl

/-- The bit loop over a whole field is the byte form (42_pack.md R137). A field that does not fit in its first byte ends
in the next one. -/
theorem putEach_eq_putBytes {w : Nat} (hw : 1 ≤ w) (hw8 : w ≤ 8) (base p : Nat) (v : BitVec w) (o : Memory 8) :
    putEach base p v 0 w o = putBytes base p v o := by
  dsimp only [putBytes]
  split
  · rename_i hb
    exact putEach_unwritten (p := p) (j := 0) v hw hb
  · rename_i b hb
    split
    · rename_i hfit
      have hfield := putEach_eq_setField (p := p) (j := 0) v hw (by omega) hfit hb
      rwa [Nat.add_zero, Nat.sub_zero, Nat.sub_self, Nat.pow_zero, Nat.div_one] at hfield
    · rename_i hcross
      rw [putEach_crossing v hb hcross]
      have hnext : base + (p + (8 - p % 8)) / 8 = base + p / 8 + 1 := by omega
      have hstart : (p + (8 - p % 8)) % 8 = 0 := by omega
      have hkept := fun x => Memory.read_write_other o (a := base + p / 8) x (Nat.succ_ne_self (base + p / 8))
      split
      · rename_i hb'
        rw [putEach_unwritten v (by omega) (by rw [hnext]; exact (hkept _).trans hb'), hnext]
      · rename_i b' hb'
        rw [putEach_eq_setField v (by omega) (by omega) (by omega) (by rw [hnext]; exact (hkept _).trans hb'), hnext,
          hstart, Nat.sub_self, Nat.pow_zero, Nat.div_one]

/-- Settles O39: fields of 3 and of 5 bits are shorter than a byte, and their last byte lies in the buffer. -/
theorem putBitsByteForm : Obligations.PutBitsByteForm := by
  refine fun olen base p o => ⟨fun v h => ?_, fun v h => ?_⟩
  · rw [putBits, if_neg (by simpa [lastByte] using h), putEach_eq_putBytes (by omega) (by omega)]
  · rw [putBits, if_neg (by simpa [lastByte] using h), putEach_eq_putBytes (by omega) (by omega)]

end Sys2Proof.Machine
end

section
/-! SUPPORT. The buffer of an empty transaction and its text (42_pack.md R146, 43_text.md R161, R164). -/

namespace Sys2Proof.Machine

/-- Without words both regions are empty, and a count of 0 gives three zero bytes (42_pack.md R134, R146). -/
theorem encodeBuffer_nil (sel : CntSel) (a : Byte) : encodeBuffer sel a [] = [a, 0, 0, 0] := by
  cases sel with
  | hi => rfl
  | lo => rfl

/-- The text of a header whose count bytes are 0: of its two groups only the first two characters depend on the
algorithm byte (43_text.md R161). -/
theorem textOf_header_zero (a : Byte) :
    textOf [a, 0, 0, 0] =
      [sixChar (a.toNat / 4), sixChar (a.toNat % 4 * 16), 'A', 'A', 'A', 'A', '=', '='] := rfl

/-- Settles O60: the buffer of no words is a header with a zero count, whose text has its two characters of the
algorithm byte first. -/
theorem headerOnlyText : Obligations.HeaderOnlyText := by
  refine fun a => ⟨sixChar (a.toNat / 4), sixChar (a.toNat % 4 * 16), encodeBuffer_nil .hi a, ?_, ?_, ?_⟩
  · rw [encodeBuffer_nil, textOf_header_zero]
  · rw [textOf_header_zero]
    decide
  · rw [textOf_header_zero]
    decide

end Sys2Proof.Machine
end

section
/-! SUPPORT. What the commands and the output transfer do, each in its legal phase (44_commands.md R176, R178, R182), as
equations of `exec`, and what a command word decodes to (30_encoding.md R82). -/

namespace Sys2Proof.Machine

/-- A command word with `op` 0 is START of its low data byte (30_encoding.md R82, R83). -/
theorem decode_cmdWord_start {op : BitVec 2} (d : BitVec 32) (h : op = 0#2) :
    decode (.ofCmd (cmdWord op d)) = .ok (.start (startOperand d)) := by
  rw [decode_ofCmd, decodeCmd_start ((cmdOp_cmdWord op d).trans h), cmdData_cmdWord]

/-- A command word with `op` 3 is CLEAR (30_encoding.md R82). -/
theorem decode_cmdWord_clear {op : BitVec 2} (d : BitVec 32) (h : op = 3#2) :
    decode (.ofCmd (cmdWord op d)) = .ok .clear := by
  rw [decode_ofCmd, decodeCmd_clear ((cmdOp_cmdWord op d).trans h)]

variable {s : State}

theorem exec_start_idle (a : Byte) (hp : s.phase = .idle) : exec (.start a) s = .next (openTransaction a s) :=
  inPhase_legal _ hp (by decide)

theorem exec_push_fits {w : Word} (hp : s.phase = .load) (hc : codesFit s (scan (delta s.prev w)) = true) :
    exec (.push w) s = .next (appendWord w (scan (delta s.prev w)) s) := by
  rw [exec, execPush, inPhase_legal _ hp (by decide), pushWord, if_pos hc]

theorem exec_push_overflow {w : Word} (hp : s.phase = .load) (hc : ¬ codesFit s (scan (delta s.prev w)) = true) :
    exec (.push w) s = .next (raiseFault .resource s) := by
  rw [exec, execPush, inPhase_legal _ hp (by decide), pushWord, if_neg hc]

/-- In `FAULT` a PUSH is discarded (60_exceptions.md R208). -/
theorem exec_push_fault (w : Word) (hp : s.phase = .fault) : exec (.push w) s = .next s := inPhase_fault .load _ hp

/-- In `FAULT` a FINISH is discarded (60_exceptions.md R208). -/
theorem exec_finish_fault (hp : s.phase = .fault) : exec .finish s = .next s := inPhase_fault .load _ hp

theorem exec_pop_drain {b : Byte} (hp : s.phase = .drain) (hb : s.obuf.read s.rp = some b) :
    exec .pop s = .next (deliver b s) := by
  rw [exec, execPop, outValid, decide_eq_true hp, if_pos rfl, hb]

/-- Outside `DRAIN` no byte is offered (44_commands.md R170). -/
theorem outValid_eq_false (hp : s.phase ≠ .drain) : outValid s = false := decide_eq_false hp

/-- The first fault is the one recorded (10_state.md R33). -/
theorem raiseFault_fault_of_none (c : FaultCode) (hf : s.fault = .none) : (raiseFault c s).fault = c := by
  rw [raiseFault_fault, if_pos hf]

/-- Outside its legal phase a command records F_PROTO, where no fault is recorded yet (60_exceptions.md R204). -/
theorem inPhase_records_proto {legal : Phase} (rule : Out) (hl : s.phase ≠ legal) (hp : s.phase ≠ .fault)
    (hf : s.fault = .none) : ∃ t, inPhase legal s rule = .next t ∧ t.phase = .fault ∧ t.fault = .proto :=
  ⟨_, inPhase_proto rule hl hp, rfl, raiseFault_fault_of_none .proto hf⟩

end Sys2Proof.Machine
end

section
/-! SUPPORT. Output transfers one after another deliver the buffer (44_commands.md R182, R183). -/

namespace Sys2Proof.Safety

open Sys2Proof.Machine

/-- The transfers of a buffer, its first byte and the rest. -/
theorem markLast_cons (b : Byte) (bs : List Byte) : markLast (b :: bs) = ⟨b, decide (bs = [])⟩ :: markLast bs := by
  cases bs with
  | nil => rfl
  | cons c bs => rfl

/-- POPs from `DRAIN` deliver what is left of the buffer: an induction over the bytes left, of which each POP takes the
first (44_commands.md R182). -/
theorem execAll_pops {s : State} {B : List Byte} (hp : s.phase = .drain) (hne : B ≠ [])
    (hlen : s.rp + B.length = s.olen) (hread : ∀ k, k < B.length → s.obuf.read (s.rp + k) = B[k]?) :
    ∃ t, execAll (List.replicate B.length .pop) s = .next t ∧ t.delivered = s.delivered ++ markLast B ∧
      t.phase = .idle ∧ t.rp = s.olen ∧ t.fault = s.fault := by
  induction B generalizing s with
  | nil => exact absurd rfl hne
  | cons b bs ih =>
    have hpop : exec .pop s = .next (deliver b s) := exec_pop_drain hp (hread 0 (Nat.zero_lt_succ _))
    have hlast : atLast s = decide (bs = []) := by
      rw [atLast, decide_eq_decide, ← hlen, List.length_cons, ← List.length_eq_zero_iff]
      omega
    rw [List.length_cons, List.replicate_succ, execAll_cons_next _ hpop, markLast_cons, ← hlast]
    rw [List.length_cons] at hlen hread
    by_cases hbs : bs = []
    · subst hbs
      exact ⟨deliver b s, rfl, deliver_delivered b s, by simp [hlast], hlen, rfl⟩
    · have hphase : (deliver b s).phase = .drain := by simp [hlast, hbs, hp]
      obtain ⟨t, hrun, hdel, hidle, hrp, hfault⟩ := ih hphase hbs (by rw [deliver_rp, deliver_olen]; omega)
        (fun k hk => by
          rw [deliver_obuf, deliver_rp, Nat.add_right_comm, Nat.add_assoc]
          exact hread (k + 1) (Nat.succ_lt_succ hk))
      exact ⟨t, hrun, by rw [hdel, deliver_delivered, List.append_assoc, List.singleton_append], hidle, hrp, hfault⟩

/-- From the start of the drain the POPs deliver all of the buffer (44_commands.md R183). -/
theorem execAll_pops_of_memHolds {s : State} {B : List Byte} (hp : s.phase = .drain) (hrp : s.rp = 0) (hne : B ≠ [])
    (hlen : s.olen = B.length) (hmem : MemHolds s.obuf B) :
    ∃ t, execAll (List.replicate s.olen .pop) s = .next t ∧ t.delivered = s.delivered ++ markLast B ∧
      t.phase = .idle ∧ t.rp = s.olen ∧ t.fault = s.fault := by
  have h := execAll_pops hp hne (by rw [hrp, Nat.zero_add, hlen])
    (fun k hk => by rw [hrp, Nat.zero_add]; exact hmem k hk)
  rwa [← hlen] at h

/-- Settles O20: the POPs of the whole drain, byte by byte. -/
theorem drainDeliversBuffer : Obligations.DrainDeliversBuffer := by
  intro s B hp hrp hne hlen hmem
  obtain ⟨t, hrun, hdel, hidle, hend, -⟩ := execAll_pops_of_memHolds hp hrp hne hlen hmem
  exact ⟨t, hrun, hdel, hidle, hend⟩

end Sys2Proof.Safety
end

section
/-! SUPPORT. A transaction from START to FINISH (44_commands.md R190): what its commands have made of the state, as long
as the words fit, and the fault they raise where they do not. -/

namespace Sys2Proof.Safety

open Sys2Proof.Machine

/-- The transaction of identifier `a` is open in `u` with the words `t`, and nothing else a host could see has changed
since the state `s` it was opened in. -/
structure Loaded (s : State) (a : Byte) (t : List Word) (u : State) : Prop where
  phase_eq     : u.phase = .load
  alg_eq       : u.alg = a
  cfg_eq       : u.cfg = s.cfg
  fault_eq     : u.fault = s.fault
  delivered_eq : u.delivered = s.delivered
  holds        : Holds t u

variable {s u : State} {a : Byte} {t : List Word} {w : Word}

/-- START opens a transaction without words (44_commands.md R176). -/
theorem loaded_openTransaction (s : State) (a : Byte) : Loaded s a [] (openTransaction a s) where
  phase_eq := rfl
  alg_eq := rfl
  cfg_eq := rfl
  fault_eq := rfl
  delivered_eq := rfl
  holds := .of_zero rfl rfl rfl (by simp) (fun _ => rfl)

/-- A PUSH that fits adds its word (44_commands.md R178). -/
theorem Loaded.push (h : Loaded s a t u) (hfit : FitsStreams s.cfg (t ++ [w])) :
    ∃ u', exec (.push w) u = .next u' ∧ Loaded s a (t ++ [w]) u' := by
  have hc := (h.holds.codesFit_iff_fits h.phase_eq w).2 (h.cfg_eq ▸ hfit)
  have hwords := h.holds.appendWord w h.phase_eq hc
  refine ⟨_, exec_push_fits h.phase_eq hc, ?_⟩
  rw [appendWord_eq] at hwords ⊢
  exact { h with holds := hwords }

/-- A PUSH that does not fit raises F_RESOURCE (60_exceptions.md R202 (a), (b)). -/
theorem Loaded.push_overflow (h : Loaded s a t u) (hover : ¬ FitsStreams s.cfg (t ++ [w])) :
    exec (.push w) u = .next (raiseFault .resource u) := by
  refine exec_push_overflow h.phase_eq (mt (h.holds.codesFit_iff_fits h.phase_eq w).1 ?_)
  rwa [h.cfg_eq]

/-- The length of the buffer FINISH is to build. -/
theorem Loaded.bufferBytes_eq (h : Loaded s a t u) :
    bufferBytes u.ncnt u.xcnt = (encodeBuffer s.cfg.cntSel a t).length := h.holds.bufferBytes_eq _ _

/-- FINISH of a transaction that fits leaves its encoded buffer to drain (44_commands.md R180). -/
theorem Loaded.finish (h : Loaded s a t u) (hfit : (encodeBuffer s.cfg.cntSel a t).length ≤ s.cfg.ocap) :
    ∃ v, exec .finish u = .next v ∧ v.phase = .drain ∧ v.rp = 0 ∧ v.fault = s.fault ∧ v.delivered = s.delivered ∧
      v.olen = (encodeBuffer s.cfg.cntSel a t).length ∧ MemHolds v.obuf (encodeBuffer s.cfg.cntSel a t) := by
  obtain ⟨o, hk⟩ := h.holds.pack_done (by rwa [h.bufferBytes_eq, h.cfg_eq])
  obtain ⟨-, -, hmem⟩ := (h.holds.built h.phase_eq hk).buffer rfl
  rw [h.cfg_eq, h.alg_eq] at hmem
  exact ⟨_, execFinish_done h.phase_eq hk, rfl, rfl, h.fault_eq, h.delivered_eq, h.bufferBytes_eq, hmem⟩

/-- FINISH of a transaction that does not fit raises F_RESOURCE (60_exceptions.md R202 (c)). -/
theorem Loaded.finish_overflow (h : Loaded s a t u) (hover : s.cfg.ocap < (encodeBuffer s.cfg.cntSel a t).length) :
    exec .finish u = .next (raiseFault .resource u) :=
  execFinish_overflow h.phase_eq (by rwa [h.bufferBytes_eq, h.cfg_eq])

/-- With F_RESOURCE raised in an open transaction nothing has been delivered and nothing is offered. -/
theorem Loaded.raise_resource (h : Loaded s a t u) (hf : s.fault = .none) :
    (raiseFault .resource u).phase = .fault ∧ (raiseFault .resource u).fault = .resource ∧
      (raiseFault .resource u).delivered = s.delivered ∧ outValid (raiseFault .resource u) = false :=
  ⟨rfl, raiseFault_fault_of_none _ (h.fault_eq.trans hf), h.delivered_eq, rfl⟩

/-- Operations in two parts, of which the first gives a next state. -/
theorem execAll_append_next {l₁ : List Instr} (l₂ : List Instr) (h : execAll l₁ s = .next u) :
    execAll (l₁ ++ l₂) s = execAll l₂ u := by
  rw [execAll_append, h]

/-- One operation on its own. -/
theorem execAll_singleton {i : Instr} (h : exec i s = .next u) : execAll [i] s = .next u := execAll_cons_next [] h

/-- Operations that each leave the state as it is. -/
theorem execAll_of_forall_self {l : List Instr} (h : ∀ i ∈ l, exec i s = .next s) : execAll l s = .next s := by
  induction l with
  | nil => rfl
  | cons i l ih =>
    rw [List.forall_mem_cons] at h
    exact (execAll_cons_next l h.1).trans (ih h.2)

/-- Where the streams of a transaction fit, so do those of its words before the last. -/
theorem fitsStreams_of_concat {c : Config} (h : FitsStreams c (t ++ [w])) : FitsStreams c t := by
  rw [FitsStreams, normalStream_concat, exceptionalStream_concat, List.length_append, List.length_append] at h
  exact ⟨by omega, by omega⟩

/-- START and the PUSHes of words that fit: an induction over the words, the last one first. -/
theorem execAll_start_pushes (a : Byte) (hp : s.phase = .idle) (hfit : FitsStreams s.cfg t) :
    ∃ u, execAll (.start a :: t.map .push) s = .next u ∧ Loaded s a t u := by
  induction t using List.reverseRecOn with
  | nil => exact ⟨_, execAll_singleton (exec_start_idle a hp), loaded_openTransaction s a⟩
  | append_singleton t w ih =>
    obtain ⟨u, hrun, hu⟩ := ih (fitsStreams_of_concat hfit)
    obtain ⟨u', hpush, hu'⟩ := hu.push hfit
    refine ⟨u', ?_, hu'⟩
    rw [List.map_append, ← List.cons_append, execAll_append_next _ hrun]
    exact execAll_singleton hpush

/-- Settles O57: START and the PUSHes load the words, FINISH leaves their encoded buffer, and the POPs deliver it. -/
theorem transactionDeliversEncodedBuffer : Obligations.TransactionDeliversEncodedBuffer := by
  intro s a t hp hfit
  obtain ⟨u, hrun, hu⟩ := execAll_start_pushes a hp hfit.1
  obtain ⟨v, hfin, hdrain, hrp, hfault, hdel, hlen, hmem⟩ := hu.finish hfit.2
  have hne : encodeBuffer s.cfg.cntSel a t ≠ [] := List.cons_ne_nil _ _
  obtain ⟨x, hpops, hxdel, hidle, -, hxfault⟩ := execAll_pops_of_memHolds hdrain hrp hne hlen hmem
  refine ⟨v, x, ?_, hdrain, hfault, hlen, hpops, hidle, hxfault.trans hfault, by rw [hxdel, hdel]⟩
  exact (execAll_append_next [.finish] hrun).trans (execAll_singleton hfin)

/-- Settles O58: the words before the one that does not fit are loaded; the fault raised there, or by FINISH, keeps what
was delivered, and `FAULT` discards the rest. -/
theorem overflowingTransactionFaults : Obligations.OverflowingTransactionFaults := by
  intro s a hp hf
  refine ⟨fun t₀ w t₁ hfit hover => ?_, fun t hfit hover => ?_⟩
  · obtain ⟨u, hrun, hu⟩ := execAll_start_pushes a hp hfit
    obtain ⟨hphase, hres, hdel, hout⟩ := hu.raise_resource hf
    refine ⟨_, ?_, hphase, hres, hdel, hout, execAll_of_forall_self fun i hi => ?_⟩
    · rw [List.map_append, ← List.cons_append, execAll_append_next _ hrun]
      exact execAll_singleton (hu.push_overflow hover)
    · rcases List.mem_append.1 hi with hi | hi
      · obtain ⟨w', -, rfl⟩ := List.mem_map.1 hi
        exact exec_push_fault w' hphase
      · obtain rfl := List.mem_singleton.1 hi
        exact exec_finish_fault hphase
  · obtain ⟨u, hrun, hu⟩ := execAll_start_pushes a hp hfit
    refine ⟨_, ?_, hu.raise_resource hf⟩
    exact (execAll_append_next [.finish] hrun).trans (execAll_singleton (hu.finish_overflow hover))

end Sys2Proof.Safety
end

section
/-! SUPPORT. The statements about each command by itself (44_commands.md R176 to R181, R184). -/

namespace Sys2Proof.Machine

open Sys2Proof.Safety

/-- Settles O12: in IDLE the transaction is opened, and elsewhere the legality test raises F_PROTO. -/
theorem startOpensTransaction : Obligations.StartOpensTransaction := by
  refine fun a s => ⟨fun hp => ?_, fun hp hf => ?_, fun d => ?_⟩
  · exact ⟨_, exec_start_idle a hp, rfl, rfl, rfl, rfl, rfl, rfl, rfl, rfl, rfl, rfl, rfl, rfl⟩
  · have hmis : s.phase ≠ .idle ∧ s.phase ≠ .fault := by rcases hp with hp | hp <;> simp [hp]
    exact inPhase_records_proto _ hmis.1 hmis.2 hf
  · exact decode_cmdWord_start d rfl

/-- What `NMEM` reads as behind its old codes after a PUSH (44_commands.md R178). -/
theorem appendWord_read_nmem (w : Word) (codes : List NCode × List XCode) (s : State) {k : Nat}
    (hk : k < codes.1.length) : (appendWord w codes s).nmem.read (s.ncnt + k) = codes.1[k]? := by
  rw [appendWord_eq, nAppends_read, if_pos (by omega), Nat.add_sub_cancel_left]

/-- What `XMEM` reads as behind its old codes after a PUSH (44_commands.md R178). -/
theorem appendWord_read_xmem (w : Word) (codes : List NCode × List XCode) (s : State) {k : Nat}
    (hk : k < codes.2.length) : (appendWord w codes s).xmem.read (s.xcnt + k) = codes.2[k]? := by
  rw [appendWord_eq, xAppends_read, if_pos (by omega), Nat.add_sub_cancel_left]

/-- The registers after a PUSH that fits (44_commands.md R178, R179). -/
theorem appendWord_registers (w : Word) (codes : List NCode × List XCode) (s : State) :
    (appendWord w codes s).ncnt = s.ncnt + codes.1.length ∧ (appendWord w codes s).xcnt = s.xcnt + codes.2.length ∧
      (appendWord w codes s).prev = w ∧ (appendWord w codes s).count = s.count + 1 ∧
      (appendWord w codes s).phase = s.phase := by
  rw [appendWord_eq]
  exact ⟨rfl, rfl, rfl, rfl, rfl⟩

/-- Settles O13: the capacity test decides between the appends and F_RESOURCE; outside LOAD the command is misplaced. -/
theorem pushAppendsCodes : Obligations.PushAppendsCodes := by
  intro w s ns xs hscan
  have hscan : scan (delta s.prev w) = (ns, xs) := hscan
  refine ⟨fun hp hn hx => ?_, fun hp hf hover => ?_, fun hp hf => ?_, ?_⟩
  · have hpush := exec_push_fits (w := w) hp (by rw [hscan]; exact (codesFit_iff s _).2 ⟨hn, hx⟩)
    rw [hscan] at hpush
    obtain ⟨hncnt, hxcnt, hprev, hcount, hphase⟩ := appendWord_registers w (ns, xs) s
    exact ⟨_, hpush, hncnt, hxcnt, fun k => appendWord_read_nmem w (ns, xs) s,
      fun k => appendWord_read_xmem w (ns, xs) s, hprev, hcount, hphase.trans hp⟩
  · have hc : ¬ codesFit s (scan (delta s.prev w)) = true := by
      rw [hscan, codesFit_iff]
      exact fun ⟨hn, hx⟩ => hover.elim (Nat.not_lt.2 hn) (Nat.not_lt.2 hx)
    exact ⟨_, exec_push_overflow hp hc, rfl, raiseFault_fault_of_none _ hf, rfl, rfl⟩
  · have hmis : s.phase ≠ .load ∧ s.phase ≠ .fault := by rcases hp with hp | hp <;> simp [hp]
    exact inPhase_records_proto _ hmis.1 hmis.2 hf
  · rw [decode_ofCmd, decodeCmd_push (cmdOp_cmdWord _ _), cmdData_cmdWord, pushOperand]

/-- Settles O14: a PUSH that did not fault appended as many codes as SCAN gives (41_symbol.md R116). -/
theorem pushCounters : Obligations.PushCounters := by
  intro w s t hp h ht
  by_cases hc : codesFit s (scan (delta s.prev w)) = true
  · cases (exec_push_fits hp hc).symm.trans h
    obtain ⟨hncnt, hxcnt, -, hcount, -⟩ := appendWord_registers w (scan (delta s.prev w)) s
    rw [scan_fst_length] at hncnt
    rw [scan_snd_length] at hxcnt
    exact ⟨hcount, hncnt, hxcnt⟩
  · cases (exec_push_overflow hp hc).symm.trans h
    exact absurd rfl ht

/-- A memory with a value at every place below `n` holds some list of that length. -/
theorem exists_memHolds {w n : Nat} {m : Memory w} (h : ∀ i, i < n → (m.read i).isSome) :
    ∃ l : List (BitVec w), n = l.length ∧ MemHolds m l := by
  refine ⟨(List.range n).map (fun i => (m.read i).getD 0), by simp, fun k hk => ?_⟩
  have hk : k < n := by simpa using hk
  obtain ⟨x, hx⟩ := Option.isSome_iff_exists.1 (h k hk)
  simp [hk, hx]

/-- Wherever PACK is done, the buffer begins with the header (42_pack.md R140, R146). -/
theorem pack_done_read_header {s : State} {o : Memory 8} (hk : pack s = .done o) {k : Nat} (h4 : k < 4) :
    o.read k = (headerOf s.cfg.cntSel s.alg s.count)[k]? := by
  obtain ⟨-, hn, hx⟩ := pack_done s o hk
  obtain ⟨N, hN, hmemN⟩ := exists_memHolds hn
  obtain ⟨X, hX, hmemX⟩ := exists_memHolds hx
  have hlen : (headerOf s.cfg.cntSel s.alg s.count).length = 4 := rfl
  rw [pack_done_memHolds hk hN hX hmemN hmemX k (by rw [List.length_append]; omega), List.getElem?_append_left h4]

/-- Settles O17: a FINISH that did not fault left what PACK built, of 4 bytes or more, with `alg` in front. -/
theorem finishOffersFirstByte : Obligations.FinishOffersFirstByte := by
  intro s t hp h ht
  have h : execFinish s = .next t := h
  rcases execFinish_cases s with ⟨hf, -⟩ | ⟨-, o, hk, hx⟩ | ⟨-, -, hx⟩ | ⟨-, f, -, hx⟩ | ⟨-, hl, -⟩
  · exact absurd (hp.symm.trans hf) (by decide)
  · cases hx.symm.trans h
    have halg : o.read 0 = some s.alg := pack_done_read_header hk (by decide)
    have hlen : 0 + 1 ≠ bufferBytes s.ncnt s.xcnt := by unfold bufferBytes; omega
    refine ⟨rfl, ?_, decide_eq_false hlen⟩
    rw [outData, if_pos rfl, halg, Option.getD_some]
  · cases hx.symm.trans h
    exact absurd rfl ht
  · cases hx.symm.trans h
  · exact absurd hp hl

/-- Settles O18: the command is the return from a fault, whatever the phase. -/
theorem clearReturnsToIdle : Obligations.ClearReturnsToIdle := by
  exact fun s => ⟨leaveFault s, rfl, rfl, rfl, rfl, rfl, rfl, rfl, rfl, rfl, rfl, rfl, rfl, rfl, rfl,
    fun d => decode_cmdWord_clear d rfl⟩

end Sys2Proof.Machine
end

section
/-! SUPPORT. The statements about the output port and its transfer (44_commands.md R172, R177, R182), and about a step
that takes a word (R173, R174). -/

namespace Sys2Proof.Machine

open Sys2Proof.Safety

/-- Settles O47: the port shows OBUF at `rp` in DRAIN, where alone it is valid. -/
theorem outputPort : Obligations.OutputPort := by
  refine fun s => ⟨fun hp => ⟨decide_eq_true hp, if_pos hp, fun b hb => ?_⟩, outValid_eq_false⟩
  rw [outData, if_pos hp, hb, Option.getD_some]

/-- Settles O19: the transfer is `deliver`, whose new phase goes by whether the byte is the last. -/
theorem popDelivers : Obligations.PopDelivers := by
  refine ⟨fun s b hp hb => ?_, fun s => outValid_eq_false⟩
  have hphase : (deliver b s).phase = if s.rp + 1 = s.olen then .idle else .drain := by
    simp only [deliver_phase, atLast, hp, decide_eq_true_eq]
  exact ⟨_, exec_pop_drain hp hb, rfl, rfl, hphase, rfl, rfl, rfl, rfl, rfl⟩

/-- With no scan in flight there is nothing for an emission to act on (10_state.md R29). -/
theorem onScan_of_none (f : Scan → Scan) {s : State} (hs : s.scan = none) : onScan f s = s := by
  rw [onScan, hs, Option.map_none, ← hs]

/-- Settles O25: POP is a transfer only where the port is valid, and an emission row acts on the scan in flight. -/
theorem operationsThatDoNotComeUp : Obligations.OperationsThatDoNotComeUp := by
  refine ⟨fun s hp => ⟨outValid_eq_false hp, ?_⟩, fun i s hi hs => ?_⟩
  · rw [exec, execPop, outValid_eq_false hp, if_neg Bool.false_ne_true]
  · cases i with
    | start | push | finish | clear | pop | xcodeNever | header => simp [emissionRow] at hi
    | _ => exact congrArg Host.Outcome.next (onScan_of_none _ hs)

/-- A step that takes the word of an operation runs it (44_commands.md R173). -/
theorem step_word {s : State} {f : FWord} {rest : List Offer} {i : Instr} (hp : s.pending = .word f :: rest)
    (hd : decode f = .ok i) : step s = exec i (takeOffer rest s) := by
  simp only [step, hp, hd]

/-- Settles O6: `takeOffer` is the update the statement writes out. -/
theorem stepRunsDecoded : Obligations.StepRunsDecoded := fun _ _ _ _ hp hd _ => step_word hp hd

/-- In DRAIN an edge with both ports ready offers the output transfer first and the command second (44_commands.md
R174). -/
theorem edgeOffers_of_both {s : State} {e : Edge} (hp : s.phase = .drain) (hrst : e.rst = false)
    (hout : e.outReady = true) (hcmd : e.cmdValid = true) :
    edgeOffers s e = [.word (encode .pop), .word (.ofCmd (cmdWord e.cmdOp e.cmdData))] := by
  simp [edgeOffers, edgePop, edgeCommand, outValid, cmdReady, hp, hrst, hout, hcmd]

/-- The output transfer of such an edge is the first step, and leaves the command offered (44_commands.md R174). -/
theorem step_offerEdge_of_both {s : State} {e : Edge} {b : Byte} (hp : s.phase = .drain) (hpend : s.pending = [])
    (hrst : e.rst = false) (hout : e.outReady = true) (hcmd : e.cmdValid = true) (hb : s.obuf.read s.rp = some b) :
    step (offerEdge s e) =
      .next (deliver b (takeOffer [.word (.ofCmd (cmdWord e.cmdOp e.cmdData))] (offerEdge s e))) := by
  have hoffers : (offerEdge s e).pending = [.word (encode .pop), .word (.ofCmd (cmdWord e.cmdOp e.cmdData))] := by
    rw [offerEdge, hpend, List.nil_append, edgeOffers_of_both hp hrst hout hcmd]
  exact (step_word hoffers rfl).trans (exec_pop_drain hp hb)

/-- The last byte ends the drain (44_commands.md R182). -/
theorem deliver_phase_of_last (b : Byte) {s : State} (h : s.rp + 1 = s.olen) : (deliver b s).phase = .idle := by
  rw [deliver_phase, atLast, decide_eq_true h, if_pos rfl]

/-- Settles O8: the first step runs POP and leaves the command, which the second step runs in the phase POP left. -/
theorem outputBeforeCommandAtOneEdge : Obligations.OutputBeforeCommandAtOneEdge := by
  intro s e b hp hpend hrst hout hcmd hb
  refine ⟨_, step_offerEdge_of_both hp hpend hrst hout hcmd hb, rfl, rfl, fun hlast hop => ?_, fun hop => ?_⟩
  · exact ⟨_, (step_word rfl (decode_cmdWord_start _ hop)).trans (exec_start_idle _ (deliver_phase_of_last b hlast)),
      rfl, rfl⟩
  · exact ⟨_, step_word rfl (decode_cmdWord_clear _ hop), rfl, rfl⟩

end Sys2Proof.Machine
end

section
/-! SUPPORT. The statements about faults (60_exceptions.md R202 to R208), and about a step that takes no operation
(R219, 30_encoding.md R80). -/

namespace Sys2Proof.Machine

open Sys2Proof.Safety

variable {s : State}

/-- The capacity test of PUSH fails by one code or more in either memory (60_exceptions.md R202 (a), (b)). -/
theorem not_codesFit_iff (s : State) (codes : List NCode × List XCode) :
    ¬ codesFit s codes = true ↔
      s.cfg.ncap < s.ncnt + codes.1.length ∨ s.cfg.xcap < s.xcnt + codes.2.length := by
  rw [codesFit_iff, not_and_or, Nat.not_le, Nat.not_le]

/-- A fault raised with none recorded stores nothing (60_exceptions.md R206). -/
theorem raiseFault_spec (c : FaultCode) (hf : s.fault = .none) :
    (raiseFault c s).phase = .fault ∧ (raiseFault c s).fault = c ∧ MemSame s (raiseFault c s) :=
  ⟨rfl, raiseFault_fault_of_none c hf, memSame_of_eq rfl rfl rfl⟩

/-- In LOAD only START and the two commands that lack room lead to `FAULT` (10_state.md R32). -/
theorem lacks_room_of_nextPhase_fault {i : Instr} (hp : s.phase = .load) (hi : ∀ a, i ≠ .start a)
    (h : nextPhase s i = .fault) :
    (∃ w, i = .push w ∧ ¬ codesFit s (scan (delta s.prev w)) = true) ∨
      (i = .finish ∧ s.cfg.ocap < bufferBytes s.ncnt s.xcnt) := by
  cases i with
  | start a => exact absurd rfl (hi a)
  | push w =>
    refine .inl ⟨w, rfl, fun hc => ?_⟩
    rw [nextPhase_push hp, if_pos hc] at h
    cases h
  | finish =>
    refine .inr ⟨rfl, Nat.not_le.1 fun hfit => ?_⟩
    rw [nextPhase, if_pos ⟨hp, hfit⟩] at h
    cases h
  | _ => simp [nextPhase, hp] at h

/-- F_RESOURCE is recorded only by a command in LOAD that lacks room (60_exceptions.md R202). -/
theorem Did.lacks_room {i : Instr} {t : State} (h : Did i s t) (hf : s.fault = .none) (ht : t.fault = .resource) :
    s.phase = .load ∧ ((∃ w, i = .push w ∧ ¬ codesFit s (scan (delta s.prev w)) = true) ∨
      (i = .finish ∧ s.cfg.ocap < bufferBytes s.ncnt s.xcnt)) := by
  have hphase := h.phase_eq
  rcases h.fault_cases with ⟨hkept, -⟩ | ⟨-, rfl⟩ | ⟨hp, hi, rfl⟩ | ⟨-, -, rfl⟩
  · cases ht.symm.trans (hkept.trans hf)
  · cases ht
  · exact ⟨hp, lacks_room_of_nextPhase_fault hp hi hphase.symm⟩
  · cases ht.symm.trans (raiseFault_fault_of_none .proto hf)

/-- Settles O42: a command that lacks room raises the fault on the state it found, and no other operation records the
code. -/
theorem resourceFaultExactly : Obligations.ResourceFaultExactly := by
  refine fun s hf => ⟨fun w hp hover => ?_, fun hp hover => ?_, fun i t h ht => ?_, fun hn hx hfull => ?_⟩
  · exact ⟨_, exec_push_overflow hp ((not_codesFit_iff s _).2 hover), raiseFault_spec .resource hf⟩
  · exact ⟨_, execFinish_overflow hp hover, raiseFault_spec .resource hf⟩
  · obtain ⟨hp, ⟨w, hi, hc⟩ | hfin⟩ := (exec_did h).lacks_room hf ht
    · exact ⟨hp, .inl ⟨w, hi, (not_codesFit_iff s _).1 hc⟩⟩
    · exact ⟨hp, .inr hfin⟩
  · exact (bufferBytes_mono hn hx).trans hfull

/-- A fault already recorded is kept (10_state.md R33). -/
theorem raiseFault_fault_of_ne_none (c : FaultCode) (hf : s.fault ≠ .none) : (raiseFault c s).fault = s.fault := by
  rw [raiseFault_fault, if_neg hf]

/-- Only CLEAR changes a recorded fault (60_exceptions.md R207). -/
theorem Did.fault_eq_or_clear {i : Instr} {t : State} (h : Did i s t) (hf : s.fault ≠ .none) :
    t.fault = s.fault ∨ i = .clear := by
  rcases h.fault_cases with ⟨hkept, -⟩ | ⟨hi, -⟩ | ⟨-, -, rfl⟩ | ⟨-, -, rfl⟩
  · exact .inl hkept
  · exact .inr hi
  · exact .inl (raiseFault_fault_of_ne_none .resource hf)
  · exact .inl (raiseFault_fault_of_ne_none .proto hf)

/-- Settles O45: by the three things a step can do. -/
theorem faultIsSticky : Obligations.FaultIsSticky := by
  intro s t hf h
  rcases step_did h with ⟨-, rfl⟩ | ⟨rest, hp, -⟩ | ⟨f, rest, i, hp, hd, hdid⟩
  · exact .inl rfl
  · exact .inr (.inl ⟨rest, hp⟩)
  · rcases hdid.fault_eq_or_clear hf with hkept | rfl
    · exact .inl hkept
    · exact .inr (.inr ⟨f, rest, hp, hd⟩)

/-- With nothing offered the block idles (60_exceptions.md R219; log entry 15). -/
theorem step_of_pending_nil (hp : s.pending = []) : step s = .next (idleStep s) := by
  simp only [step, hp]

/-- A number that is no word of the block is refused (30_encoding.md R80; log entry 12). -/
theorem step_of_decode_error {f : FWord} {rest : List Offer} {r : Reject} (hp : s.pending = .word f :: rest)
    (hd : decode f = .error r) : step s = .refused (.undecodable r) := by
  simp only [step, hp, hd]

/-- Settles O7: `idleStep` is the update the statement writes out. -/
theorem stepWithoutInstruction : Obligations.StepWithoutInstruction :=
  ⟨fun _ => step_of_pending_nil, fun _ _ _ _ => step_of_decode_error⟩

theorem not_load_of_idle_or_drain (hp : s.phase = .idle ∨ s.phase = .drain) : s.phase ≠ .load ∧ s.phase ≠ .fault := by
  rcases hp with hp | hp <;> simp [hp]

theorem not_idle_of_load_or_drain (hp : s.phase = .load ∨ s.phase = .drain) : s.phase ≠ .idle ∧ s.phase ≠ .fault := by
  rcases hp with hp | hp <;> simp [hp]

/-- Settles O41: each command is outside its legal phase, so the legality test raises F_PROTO. -/
theorem misplacedCommandFaults : Obligations.MisplacedCommandFaults := by
  refine fun s hf => ⟨fun a hp => ?_, fun w hp => ?_, fun hp => ?_⟩
  · obtain ⟨hl, hp⟩ := not_idle_of_load_or_drain hp
    exact inPhase_records_proto _ hl hp hf
  · obtain ⟨hl, hp⟩ := not_load_of_idle_or_drain hp
    exact inPhase_records_proto _ hl hp hf
  · obtain ⟨hl, hp⟩ := not_load_of_idle_or_drain hp
    exact inPhase_records_proto _ hl hp hf

/-- In `FAULT` a START is discarded (60_exceptions.md R208). -/
theorem exec_start_fault (a : Byte) (hp : s.phase = .fault) : exec (.start a) s = .next s := inPhase_fault .idle _ hp

/-- Settles O44: the legality test discards the three commands, and the ports go by the phase. -/
theorem faultStateDiscards : Obligations.FaultStateDiscards := fun _ hp =>
  ⟨fun a => exec_start_fault a hp, fun w => exec_push_fault w hp, exec_finish_fault hp, rfl,
    outValid_eq_false (by rw [hp]; decide)⟩

end Sys2Proof.Machine
end

section
/-! SUPPORT. Reset and CLEAR: what the host sees afterwards, and what a reset and the other steps leave as it was
(70_reset_and_hazards.md R230, R232, R233, R236). -/

namespace Sys2Proof.Machine

/-- A reset is taken as one step (44_commands.md R173; log entry 16). -/
theorem step_reset {s : State} {rest : List Offer} (hp : s.pending = .reset :: rest) :
    step s = .next (resetRegisters (takeOffer rest s)) := by
  simp only [step, hp]

/-- No operation writes the parameters (70_reset_and_hazards.md R236). -/
theorem Did.cfg_eq {i : Instr} {s t : State} (h : Did i s t) : t.cfg = s.cfg := by
  cases h with
  | pushed w _ _ _ ht => rw [ht, appendWord_eq]
  | nothing _ ht | opened _ _ _ ht | built _ _ _ _ ht | cleared _ ht | delivered _ _ _ _ ht | lacked _ _ ht
  | misplaced _ _ ht | headed _ _ _ _ _ ht | emitted _ _ ht => exact ht ▸ rfl

end Sys2Proof.Machine

namespace Sys2Proof.Safety

open Sys2Proof.Machine

/-- A block in `IDLE` with no fault and every counter 0 shows the host nothing but its parameters: nothing later reads
its `alg`, its `prev` or its memories before they are written again. -/
theorem shows_cleared {s : State} {c : Config} (hcfg : s.cfg = c) (hp : s.phase = .idle) (hf : s.fault = .none)
    (hc : s.count = 0) (hn : s.ncnt = 0) (hx : s.xcnt = 0) (ho : s.olen = 0) (hr : s.rp = 0) :
    Shows ⟨c, 0, [], 0, 0, .idle, .none⟩ s where
  cfg_eq := hcfg
  olen_eq := ho
  rp_eq := hr
  phase_eq := hp
  fault_eq := hf
  alg_eq := by simp
  holds _ := .of_zero hc hn hx (by simp [hp]) (by simp [hp])

/-- Settles O11: after a reset and after CLEAR the block has one view, whatever `alg`, `prev` and the memories hold. -/
theorem resetAndClearLookAlike : Obligations.ResetAndClearLookAlike := by
  intro s c h
  obtain rfl : leaveFault s = c := Host.Outcome.next.inj h
  have hreset : Shows ⟨s.cfg, 0, [], 0, 0, .idle, .none⟩ (resetRegisters s) :=
    shows_cleared rfl rfl rfl rfl rfl rfl rfl rfl
  have hclear : Shows ⟨s.cfg, 0, [], 0, 0, .idle, .none⟩ (leaveFault s) :=
    shows_cleared rfl rfl rfl rfl rfl rfl rfl rfl
  exact ⟨rfl, fun l hl => hreset.sameRun hl hclear⟩

/-- Settles O10: the step is `resetRegisters`, which writes constants to the registers and nothing to the memories. -/
theorem resetEvent : Obligations.ResetEvent := by
  refine ⟨fun s rest hp => ⟨_, step_reset hp, ?_⟩, fun s e hrst => by rw [edgeOffers, if_pos hrst], fun _ => rfl⟩
  exact ⟨rfl, rfl, rfl, rfl, rfl, rfl, rfl, rfl, rfl, rfl, rfl, rfl, rfl, rfl⟩

/-- Settles O49: by the three things a step can do. -/
theorem parametersFixed : Obligations.ParametersFixed := by
  intro s t h
  rcases step_did h with ⟨-, rfl⟩ | ⟨rest, -, rfl⟩ | ⟨f, rest, i, -, -, hd⟩
  · rfl
  · rfl
  · exact hd.cfg_eq.trans (takeOffer_cfg rest s)

end Sys2Proof.Safety
end

section
/-! SUPPORT. Capacities that suffice whatever the words are (41_symbol.md R116, 70_reset_and_hazards.md R237, R238). -/

namespace Sys2Proof.Machine

open Sys2Proof.Safety

/-- A bound on each word bounds the sum over a transaction. -/
theorem sum_map_diffs_le {f : Word → Nat} {k : Nat} (hf : ∀ d, f d ≤ k) (t : List Word) :
    ((diffs t).map f).sum ≤ t.length * k := by
  have hsum := List.sum_le_card_nsmul ((diffs t).map f) k (List.forall_mem_map.2 fun d _ => hf d)
  rwa [List.length_map, diffs_length, smul_eq_mul] at hsum

/-- A word needs at most 33 normal codes (41_symbol.md R116). -/
theorem normalStream_length_le (t : List Word) : (normalStream t).length ≤ 33 * t.length := by
  have hsum := sum_map_diffs_le popcount_le t
  rw [normalStream_length]
  omega

/-- A word needs at most 4 exceptional codes (41_symbol.md R116). -/
theorem exceptionalStream_length_le (t : List Word) : (exceptionalStream t).length ≤ 4 * t.length := by
  have hsum := sum_map_diffs_le bigGaps_le t
  rw [exceptionalStream_length]
  omega

/-- Gaps of at least 1, each escaped one at least 6 more, add up to at least this much. -/
theorem length_add_escaped_le_sum {gs : List Nat} (h : ∀ g ∈ gs, 1 ≤ g) :
    gs.length + 6 * (gs.filter (fun g => decide (7 ≤ g))).length ≤ gs.sum := by
  induction gs with
  | nil => simp
  | cons g gs ih =>
    obtain ⟨hg, hgs⟩ := List.forall_mem_cons.1 h
    have htail := ih hgs
    rw [List.length_cons, List.sum_cons]
    by_cases h7 : 7 ≤ g
    · rw [List.filter_cons_of_pos (by simpa using h7), List.length_cons]
      omega
    · rw [List.filter_cons_of_neg (by simpa using h7)]
      omega

/-- Set bits and escapes share the 32 positions: an escape costs 6 positions besides its set bit (41_symbol.md R116). -/
theorem popcount_add_bigGaps_le (d : Word) : popcount d + 6 * bigGaps d ≤ 32 :=
  calc popcount d + 6 * bigGaps d
      = (gaps d).length + 6 * bigGaps d := by rw [gaps, gapsFrom_length, popcount]
    _ ≤ (gaps d).sum := length_add_escaped_le_sum fun _ hg => (gaps_bounds hg).1
    _ ≤ 32 := gaps_sum_le d

/-- Settles O36: the bounds on one word, added up, and the two maxima do not meet since both draw on 32 positions. -/
theorem sufficientCapacity : Obligations.SufficientCapacity := by
  intro c a t
  have hn := normalStream_length_le t
  have hx := exceptionalStream_length_le t
  refine ⟨⟨hn, hx⟩, fun hncap hxcap hocap => ⟨⟨by omega, by omega⟩, ?_⟩, fun d hd => ?_⟩
  · calc (encodeBuffer c.cntSel a t).length
        = bufferBytes (normalStream t).length (exceptionalStream t).length := encodeBuffer_length _ _ _
      _ ≤ bufferBytes (33 * t.length) (4 * t.length) := bufferBytes_mono hn hx
      _ = 4 + ceilDiv (99 * t.length) 8 + ceilDiv (20 * t.length) 8 := by
        rw [bufferBytes, normalBytes, exceptionalBytes, ← Nat.mul_assoc, ← Nat.mul_assoc]
      _ ≤ c.ocap := hocap
  · rw [scan_fst_length] at hd
    have hshare := popcount_add_bigGaps_le d
    rw [← List.length_eq_zero_iff, scan_snd_length]
    omega

end Sys2Proof.Machine
end
